-- ==== Sys2Proof/Word.lean ====
section
/-! DEFINITION. The widths of the machine's values (00_scope.md R7, R10): all are unsigned bit vectors. -/

namespace Sys2Proof

/-- A byte: a general register, a timer, a byte of memory, the immediate NN. -/
abbrev Byte := BitVec 8

/-- Sixteen bits: PC, I, a stack entry, an instruction word. -/
abbrev Word := BitVec 16

/-- Four bits: a register index X or Y, the sprite height N. -/
abbrev Nibble := BitVec 4

/-- Twelve bits: the address immediate NNN. -/
abbrev Addr12 := BitVec 12

/-- A sequence of bytes, lowest address first: a program image, the bytes of an instruction. -/
abbrev Bytes := List Byte

end Sys2Proof
end

