-- ==== Sys2Proof/Config.lean ====
section
/-! DEFINITION. The fixed parameters of the block (00_scope.md R7) and its one free value, the random draw. -/

namespace Sys2Proof.Config

/-- MEM_SIZE: memory is the 4096 bytes 0x000 to 0xFFF (R7, R37, R50). -/
def memSize : Nat := 0x1000

/-- FONT_SIZE: the font region is 0x000 to 0x04F, from FONT_BASE = 0 (R7, R38, R57). -/
def fontSize : Nat := 0x50

/-- PROG_BASE: the first address of the program image and the first PC (R7, R254). -/
def progBase : Nat := 0x200

/-- MAX_IMAGE: the program region's 3584 bytes (R7, R252). -/
def maxImage : Nat := 3584

/-- FB_WIDTH (R7, R32). -/
def fbWidth : Nat := 64

/-- FB_HEIGHT (R7, R32). -/
def fbHeight : Nat := 32

/-- RANDOM: the k-th random draw a run uses. A FREE VALUE (44_alu.md R163, decision D23; log entry 4): it has no
body, so no proof can see any byte of it, and a statement about CXNN holds for every sequence of draws. -/
opaque randomByte : Nat → Byte

end Sys2Proof.Config
end

