-- ==== Sys2Proof/Syntax.lean ====
section
/-! DEFINITION. The instructions: one constructor per row of the opcode map (30_encoding.md R86), its operands the
fields the instruction reads, each at the width of its field (R81, R83). Ignored bits are no operand (R84). -/

namespace Sys2Proof

/-- The 34 instructions, in the order of R86. -/
inductive Instr where
  /-- `0??0` CLS: clear the frame buffer (R121). -/
  | cls
  /-- `0??E` RET: return from subroutine (R131). -/
  | ret
  /-- `1NNN` JP addr (R132). -/
  | jp (nnn : Addr12)
  /-- `2NNN` CALL addr (R133). -/
  | call (nnn : Addr12)
  /-- `3XNN` SE Vx, byte: skip if equal (R141). -/
  | seByte (x : Nibble) (nn : Byte)
  /-- `4XNN` SNE Vx, byte: skip if not equal (R142). -/
  | sneByte (x : Nibble) (nn : Byte)
  /-- `5XY0` SE Vx, Vy: skip if equal (R143). -/
  | seReg (x y : Nibble)
  /-- `6XNN` LD Vx, byte (R152). -/
  | ldByte (x : Nibble) (nn : Byte)
  /-- `7XNN` ADD Vx, byte, no flag (R153). -/
  | addByte (x : Nibble) (nn : Byte)
  /-- `8XY0` LD Vx, Vy (R154). -/
  | ldReg (x y : Nibble)
  /-- `8XY1` OR Vx, Vy (R155). -/
  | orReg (x y : Nibble)
  /-- `8XY2` AND Vx, Vy (R156). -/
  | andReg (x y : Nibble)
  /-- `8XY3` XOR Vx, Vy (R157). -/
  | xorReg (x y : Nibble)
  /-- `8XY4` ADD Vx, Vy, VF = carry (R158). -/
  | addReg (x y : Nibble)
  /-- `8XY5` SUB Vx, Vy, VF = no borrow (R159). -/
  | subReg (x y : Nibble)
  /-- `8XY6` SHR Vx; the Y field is ignored (R160, R84). -/
  | shr (x : Nibble)
  /-- `8XY7` SUBN Vx, Vy, VF = no borrow (R161). -/
  | subnReg (x y : Nibble)
  /-- `8XYE` SHL Vx; the Y field is ignored (R162, R84). -/
  | shl (x : Nibble)
  /-- `9XY?` SNE Vx, Vy: skip if they differ; the N field is ignored (R144, R84). -/
  | sneReg (x y : Nibble)
  /-- `ANNN` LD I, addr (R180). -/
  | ldI (nnn : Addr12)
  /-- `BNNN` JP V0, addr (R134). -/
  | jpV0 (nnn : Addr12)
  /-- `CXNN` RND Vx, byte (R163). -/
  | rnd (x : Nibble) (nn : Byte)
  /-- `DXYN` DRW Vx, Vy, n (R122). -/
  | drw (x y n : Nibble)
  /-- `EX9E` SKP Vx: skip if the key is pressed (R145). -/
  | skp (x : Nibble)
  /-- `EXA1` SKNP Vx: skip if the key is not pressed (R146). -/
  | sknp (x : Nibble)
  /-- `FX07` LD Vx, DT (R200). -/
  | ldVxDt (x : Nibble)
  /-- `FX0A` LD Vx, K: wait for a key (R201). -/
  | ldVxK (x : Nibble)
  /-- `FX15` LD DT, Vx (R203). -/
  | ldDtVx (x : Nibble)
  /-- `FX18` LD ST, Vx (R204). -/
  | ldStVx (x : Nibble)
  /-- `FX1E` ADD I, Vx, VF = "I above 0xFFF" (R181). -/
  | addI (x : Nibble)
  /-- `FX29` LD F, Vx: the font glyph's address (R182). -/
  | ldF (x : Nibble)
  /-- `FX33` LD B, Vx: three decimal digits (R183). -/
  | ldB (x : Nibble)
  /-- `FX55` LD [I], Vx: store V0 to Vx (R184). -/
  | storeRegs (x : Nibble)
  /-- `FX65` LD Vx, [I]: load V0 to Vx (R185). -/
  | loadRegs (x : Nibble)
  deriving DecidableEq, Repr

end Sys2Proof
end

