-- ==== Sys2Proof/WellFormed.lean ====
section
/-! DEFINITION. What is well formed before it reaches the machine: an instruction, and a program image. (Which WORDS
are instructions is the opcode map's matter: `legalWord` in Sys2Proof/Decode.lean.) -/

namespace Sys2Proof

/-- An instruction is well formed whenever it can be written: its operands have exactly the widths of their fields
(R81, R83), and the spec puts no further condition on any of them. So this check refuses nothing. -/
def Instr.wellFormed (_ : Instr) : Bool := true

/-- A program image fits the program region: at most 3584 bytes (R252); empty and odd lengths are accepted (R253). -/
def imageFits (image : Bytes) : Bool := decide (image.length ≤ Config.maxImage)

end Sys2Proof
end

