-- ==== Sys2Proof/Machine/State.lean ====
section
/-! DEFINITION. The state of the block (10_state.md), its faults (60_exceptions.md R231), and the state after
construction of an empty image (R40). -/

namespace Sys2Proof.Machine

/-- The kind of a memory access, as a bounds fault records it (20_memory.md R56). -/
inductive AccessKind where
  | fetch
  | read
  | write
  deriving DecidableEq, Repr

/-- The faults a step raises, each with the information it records (60_exceptions.md R231). Raising one is a NEXT
state whose status is `faulted` (R221); `step` answers `.fault` with it from then on, because a Faulted block has no
step (R111). The stop is safe: it allows less than any machine that would go on. -/
inductive Fault where
  /-- DecodeError: the fetched word is illegal (R224). Raised by the step's decode. Safe. -/
  | decodeError (w : Word) (pc : Word)
  /-- StackOverflow: 2NNN with SP = 16 (R225). Raised by CALL. Safe. -/
  | stackOverflow (pc : Word)
  /-- StackUnderflow: 00EE with SP = 0 (R226). Raised by RET. Safe. -/
  | stackUnderflow (pc : Word)
  /-- MemoryBoundsError: an access at or above 0x1000 (R227). Raised by the fetch, DXYN, FX33, FX55, FX65. Safe. -/
  | memoryBounds (addr : Nat) (kind : AccessKind) (pc : Word)
  /-- FontWriteError: a write to 0x000 to 0x04F (R229). Raised by FX33, FX55. Safe. -/
  | fontWrite (addr : Nat) (pc : Word)
  /-- KeyIndexError: EX9E or EXA1 with V[x] > 0x0F (R230). Raised by SKP, SKNP. Safe. -/
  | keyIndex (value : Byte) (pc : Word)
  deriving DecidableEq, Repr

/-- LoadError (code 1): construction fails and there is no state (60_exceptions.md R223, 70_reset_and_hazards.md R251).
Raised by `construct` only, never by a step. Safe. -/
inductive LoadError where
  /-- The image cannot be read (R250). -/
  | unreadable
  /-- The image is longer than the program region; its length is recorded (R250, R252). -/
  | tooLong (length : Nat)
  deriving DecidableEq, Repr

/-- Why an instruction has no meaning. -/
inductive Refusal where
  /-- An instruction of the table that has no meaning yet. Raised by an arm of `exec` only; no arm does. Safe. -/
  | notModelled (mnemonic : String)
  deriving DecidableEq, Repr

/-- The run status (10_state.md R33): nothing clears `faulted`. -/
inductive Status where
  | running
  | faulted (f : Fault)
  deriving DecidableEq, Repr

/-- The step's output "outcome" (40_cycle.md R104); `notStepped` before the first step (log entry 3). -/
inductive StepOutcome where
  | notStepped
  | progressed
  | blocked
  | fault (f : Fault)
  deriving DecidableEq, Repr

/-- The frame buffer: 32 rows of 64 one-bit pixels; pixel (x, y), the one of index x + y*64, is bit x of row y
(10_state.md R32). -/
abbrev FrameBuffer := Vector (BitVec 64) 32

/-- Every pixel 0 (R40, R120). -/
def FrameBuffer.blank : FrameBuffer := Vector.replicate 32 0

/-- Memory: (address, byte) pairs in canonical form, addresses strictly rising, no entry equal to what an unlisted
address reads as (Sys2Proof/Machine/Memory.lean). -/
abbrev Memory := List Host.Cell

/-- The state of the block: every piece of state of 10_state.md, the two outputs of the last step (40_cycle.md R100),
and the count of random draws used (log entry 4). -/
structure State where
  /-- V0 to VF (R20). -/
  v : Vector Byte 16
  /-- I (R23). -/
  i : Word
  /-- The program counter (R24). -/
  pc : Word
  /-- The entries of the call stack (R27). -/
  stack : Vector Word 16
  /-- SP, the number of entries in use, 0 to 16 (R27). -/
  sp : Fin 17
  /-- The delay timer DT (R30). -/
  dt : Byte
  /-- The sound timer ST (R30). -/
  st : Byte
  /-- The key state, true = pressed (R31). -/
  keys : Vector Bool 16
  /-- The frame buffer (R32). -/
  fb : FrameBuffer
  /-- frame_changed (R34). -/
  frameChanged : Bool
  /-- The run status (R33). -/
  status : Status
  /-- Memory (R37). -/
  mem : Memory
  /-- Output of the last step: the tone trigger (R108). -/
  tone : Bool
  /-- Output of the last step: its outcome (R104). -/
  outcome : StepOutcome
  /-- THE MODEL'S OWN: how many random draws have been used (R163; log entry 4). -/
  draws : Nat
  deriving DecidableEq, Repr

/-- The state after construction of an empty image (R40, R250, R253): memory holds its reset content, so nothing is
listed. `tone`, `outcome` and `draws` have no reset value in the spec (log entries 3 and 4). -/
def State.reset : State where
  v := Vector.replicate 16 0
  i := 0
  pc := BitVec.ofNat 16 Config.progBase
  stack := Vector.replicate 16 0
  sp := 0
  dt := 0
  st := 0
  keys := Vector.replicate 16 false
  fb := FrameBuffer.blank
  frameChanged := false
  status := .running
  mem := []
  tone := false
  outcome := .notStepped
  draws := 0

end Sys2Proof.Machine
end

