-- ==== Sys2Proof/Machine/Memory.lean ====
section
/-! DEFINITION. Memory: its reset content, reading and writing one byte, storing several, the canonical form, and the
address checks (10_state.md R37, R38, R40; 20_memory.md R50 to R60). -/

namespace Sys2Proof.Machine

/-- FONT: glyph d of five bytes at address 5*d, bit 7 the leftmost pixel (10_state.md R38, decision D31; log entry 8). -/
def font : Bytes :=
  [0xF0, 0x90, 0x90, 0x90, 0xF0,  0x20, 0x60, 0x20, 0x20, 0x70] ++
  [0xF0, 0x10, 0xF0, 0x80, 0xF0,  0xF0, 0x10, 0xF0, 0x10, 0xF0] ++
  [0x90, 0x90, 0xF0, 0x10, 0x10,  0xF0, 0x80, 0xF0, 0x10, 0xF0] ++
  [0xF0, 0x80, 0xF0, 0x90, 0xF0,  0xF0, 0x10, 0x20, 0x40, 0x40] ++
  [0xF0, 0x90, 0xF0, 0x90, 0xF0,  0xF0, 0x90, 0xF0, 0x10, 0xF0] ++
  [0xF0, 0x90, 0xF0, 0x90, 0x90,  0xE0, 0x90, 0xE0, 0x90, 0xE0] ++
  [0xF0, 0x80, 0x80, 0x80, 0xF0,  0xE0, 0x90, 0x90, 0x90, 0xE0] ++
  [0xF0, 0x80, 0xF0, 0x80, 0xF0,  0xF0, 0x80, 0xF0, 0x80, 0x80]

/-- What an address nothing has written reads as: the font in 0x000 to 0x04F, 0x00 above it (R40). -/
def resetByte (a : Nat) : Byte := font.getD a 0

/-- MemRead(a, 1) after its check has passed (R58). -/
def Memory.read : Memory → Nat → Byte
  | [], a => resetByte a
  | (c, d) :: rest, a => if c = a then d else Memory.read rest a

/-- MemWrite(a, 1, b) after its check has passed (R58); writing the reset content removes the entry. -/
def Memory.write : Memory → Nat → Byte → Memory
  | [], a, b => if b = resetByte a then [] else [(a, b)]
  | (c, d) :: rest, a, b =>
    if a < c then
      if b = resetByte a then (c, d) :: rest else (a, b) :: (c, d) :: rest
    else if a = c then
      if b = resetByte a then rest else (a, b) :: rest
    else (c, d) :: Memory.write rest a b

/-- The bytes `bs` stored one by one, the first at `a`, the next at `a + 1` (R183, R184, R250). -/
def Memory.storeBytes : Memory → Nat → Bytes → Memory
  | m, _, [] => m
  | m, a, b :: bs => Memory.storeBytes (Memory.write m a b) (a + 1) bs

/-- The canonical form: addresses strictly rising and inside memory, no entry equal to the reset content. -/
abbrev Memory.wf (m : Memory) : Prop :=
  m.Pairwise (fun c d => c.1 < d.1) ∧ ∀ c ∈ m, c.1 < Config.memSize ∧ c.2 ≠ resetByte c.1

/-! ### Address checks (R56, R57, R58) -/

/-- The bounds check of one address, an exact number (R56). -/
def boundsFault (kind : AccessKind) (pc : Word) (a : Nat) : Option Fault :=
  if a < Config.memSize then none else some (.memoryBounds a kind pc)

/-- The check of one address to be written: bounds first, then the font region (R57, R58). -/
def writeFault (pc : Word) (a : Nat) : Option Fault :=
  match boundsFault .write pc a with
  | some f => some f
  | none => if a < Config.fontSize then some (.fontWrite a pc) else none

/-- The fault of the lowest of the addresses a, a+1, …, a+n-1 that has one (R58). -/
def firstFault (faultAt : Nat → Option Fault) : Nat → Nat → Option Fault
  | _, 0 => none
  | a, n + 1 =>
    match faultAt a with
    | some f => some f
    | none => firstFault faultAt (a + 1) n

/-- CheckFetch(PC) (R56). -/
def checkFetch (pc : Word) : Option Fault := firstFault (boundsFault .fetch pc) pc.toNat 2

/-- CheckRead(a, n) (R56). -/
def checkRead (pc : Word) (a n : Nat) : Option Fault := firstFault (boundsFault .read pc) a n

/-- CheckWrite(a, n) (R57). -/
def checkWrite (pc : Word) (a n : Nat) : Option Fault := firstFault (writeFault pc) a n

end Sys2Proof.Machine
end

