-- ==== Sys2Proof/Machine/Ops.lean ====
section
/-! DEFINITION. The named operations the meanings are written with: one update per field of State, the ways an
instruction ends (40_cycle.md R104, R105), taking a fault (60_exceptions.md R221), the fetch (R101), the tick (R107). -/

namespace Sys2Proof.Machine

/-- What executing an instruction answers. -/
abbrev Result := Host.Outcome State Fault Refusal

/-! ### Reading and writing one piece of state (R11) -/

/-- V[x]. -/
def State.getV (s : State) (x : Nibble) : Byte := s.v[x.toNat]'(x.isLt)
/-- V[x] <- b. -/
def State.setV (s : State) (x : Nibble) (b : Byte) : State := { s with v := s.v.set x.toNat b x.isLt }
/-- VF, the flag register V[15] (R21). -/
def vf : Nibble := 15
/-- I <- w. -/
def State.setI (s : State) (w : Word) : State := { s with i := w }
/-- PC <- w. -/
def State.setPc (s : State) (w : Word) : State := { s with pc := w }
/-- DT <- b. -/
def State.setDt (s : State) (b : Byte) : State := { s with dt := b }
/-- ST <- b. -/
def State.setSt (s : State) (b : Byte) : State := { s with st := b }
/-- The whole frame buffer written, and `frame_changed <- 1` (R34). -/
def State.setFb (s : State) (fb : FrameBuffer) : State := { s with fb := fb, frameChanged := true }
/-- Memory replaced by what a store made of it. -/
def State.setMem (s : State) (m : Memory) : State := { s with mem := m }
/-- The step's output "outcome" (R104). -/
def State.setOutcome (s : State) (o : StepOutcome) : State := { s with outcome := o }
/-- The step's output "tone" (R108). -/
def State.setTone (s : State) (b : Bool) : State := { s with tone := b }
/-- The run status (R33). -/
def State.setStatus (s : State) (r : Status) : State := { s with status := r }
/-- One more random draw used (log entry 4). -/
def State.countDraw (s : State) : State := { s with draws := s.draws + 1 }

/-! ### The call stack (R27, R28) -/

/-- stack[k] for an index below 16. -/
def State.stackAt (s : State) (k : Nat) (h : k < 16) : Word := s.stack[k]
/-- The push of 2NNN: `stack[SP] <- w; SP <- SP + 1`; `none` when SP = 16 (R28, R133). -/
def State.push (s : State) (w : Word) : Option State :=
  if h : s.sp.val < 16 then
    some { s with stack := s.stack.set s.sp.val w h, sp := ⟨s.sp.val + 1, by omega⟩ }
  else none
/-- The pop of 00EE: `SP <- SP - 1`, then stack[SP], the entry kept (R28, R29); `none` when SP = 0 (R131). -/
def State.pop (s : State) : Option (Word × State) :=
  if h : s.sp.val = 0 then none
  else some (s.stackAt (s.sp.val - 1) (by omega), { s with sp := ⟨s.sp.val - 1, by omega⟩ })

/-! ### How an instruction ends (R104, R105) -/

/-- `PC <- PC +16 d; return Progressed`. -/
def State.advance (s : State) (d : Word) : Result := .next ((s.setPc (s.pc + d)).setOutcome .progressed)
/-- `PC <- PC +16 2; return Progressed`. -/
def State.done (s : State) : Result := s.advance 2
/-- `PC <- w; return Progressed`: a jump, with no check of its target (R130). -/
def State.jumpTo (s : State) (w : Word) : Result := .next ((s.setPc w).setOutcome .progressed)
/-- `return Blocked`: nothing is written (R109). -/
def State.block (s : State) : Result := .next (s.setOutcome .blocked)
/-- Fault entry: `status <- Faulted(E, info)`, the outcome Fault(E, info), and nothing else (R221, R222). -/
def State.raise (s : State) (f : Fault) : State := (s.setStatus (.faulted f)).setOutcome (.fault f)
/-- An instruction that raises `f` (R13). -/
def State.takeFault (s : State) (f : Fault) : Result := .next (s.raise f)
/-- An instruction whose checks come first: it raises the fault they found, else it goes on (R58, R222). -/
def State.guarded (s : State) (check : Option Fault) (go : Result) : Result :=
  match check with
  | some f => s.takeFault f
  | none => go

/-! ### Fetch and tick -/

/-- The word at PC, big-endian, after the fetch check (R52, R56, R101). -/
def State.fetch (s : State) : Except Fault Word :=
  match checkFetch s.pc with
  | some f => .error f
  | none => .ok (wordOfBytes (s.mem.read s.pc.toNat) (s.mem.read (s.pc.toNat + 1)))

/-- One decrement of a timer while it is non-zero (R107). -/
def tickDown (t : Byte) : Byte := if t = 0 then 0 else t - 1

/-- The timer tick (R107); the tone is 1 exactly when it finds ST = 1 (R108; log entry 22). -/
def State.tick (s : State) : State := ((s.setDt (tickDown s.dt)).setSt (tickDown s.st)).setTone (s.st == 1)

/-- The end of a step: tone 0, then the tick if the instruction progressed (R100, R107). -/
def State.finish (s : State) : State :=
  match s.outcome with
  | .progressed => s.tick
  | _ => s.setTone false

/-- A word stored at PC, high byte first (R52), where a fetch can read it; the host's question about one word. -/
def State.placeWord (s : State) (w : Word) : State :=
  if s.pc.toNat + 1 < Config.memSize then
    s.setMem (s.mem.storeBytes s.pc.toNat [w.extractLsb' 8 8, w.extractLsb' 0 8])
  else s

end Sys2Proof.Machine
end

