-- ==== Sys2Proof/Machine/Operands.lean ====
section
/-! DEFINITION. The operand forms (30_encoding.md R83, 45_index_memory.md R186): immediates widened with zeros, the
bytes at I plus k, the run of registers V0 to Vx, a key named by a register, and the pixels of a sprite. -/

namespace Sys2Proof.Machine

/-- zext_16(nnn): an address immediate as a value of PC or I (R83). -/
def addrOperand (nnn : Addr12) : Word := nnn.zeroExtend 16

/-- zext_16(b): a register's value widened (R134, R181, R182). -/
def wide (b : Byte) : Word := b.zeroExtend 16

/-- The base address I of a data access, as an exact number (R56, R186). -/
def State.base (s : State) : Nat := s.i.toNat

/-- How many registers V0 to Vx are (R184, R185). -/
def regCount (x : Nibble) : Nat := x.toNat + 1

/-- V[0] to V[x], V0 first (R184). -/
def State.regRun (s : State) (x : Nibble) : Bytes := (List.range (regCount x)).map fun k => s.getV (BitVec.ofNat 4 k)

/-- `for k in 0..n-1: V[k] <- MemRead(a + k, 1)` (R185). -/
def State.loadRun (s : State) (a : Nat) (n : Nat) : State :=
  (List.range n).foldl (fun t k => t.setV (BitVec.ofNat 4 k) (s.mem.read (a + k))) s

/-- The decimal digits of a byte, hundreds first (R183, decision D21; log entry 13). -/
def decimalDigits (b : Byte) : Bytes :=
  [BitVec.ofNat 8 (b.toNat / 100), BitVec.ofNat 8 (b.toNat / 10 % 10), BitVec.ofNat 8 (b.toNat % 10)]

/-! ### Keys (R31) -/

/-- The key named by a register's value: its flag, or `none` above 0x0F (R145, R146). -/
def State.keyFlag (s : State) (k : Byte) : Option Bool := s.keys[k.toNat]?

/-- The lowest-indexed pressed key (R201). -/
def State.lowestKey (s : State) : Option Nat := (List.range 16).find? fun k => s.keys[k]? == some true

/-! ### The frame buffer and sprites (R32, R120, R122, R123) -/

/-- fb[px, py] (R32). -/
def pixel (fb : FrameBuffer) (px py : Nat) : Bool := (fb[py]?.getD 0).getLsbD px

/-- fb[px, py] <- fb[px, py] XOR 1 (R120). -/
def flipPixel (fb : FrameBuffer) (px py : Nat) : FrameBuffer :=
  fb.setIfInBounds py (fb[py]?.getD 0 ^^^ BitVec.twoPow 64 px)

/-- A frame buffer being drawn on, and whether a set pixel was flipped so far. -/
abbrev Canvas := FrameBuffer × Bool

/-- Column c of a sprite row: bit 7 - c of its byte, flipping pixel (px, py) when set (R122, R123; decisions D17,
D18; log entries 14 and 15). -/
def drawPixel (x0 py : Nat) (row : Byte) (cv : Canvas) (c : Nat) : Canvas :=
  if row.getLsbD (7 - c) then
    let px := (x0 + c) % Config.fbWidth
    (flipPixel cv.1 px py, cv.2 || pixel cv.1 px py)
  else cv

/-- Row r of a sprite: its eight columns, left to right, on row (y0 + r) mod 32 (R122, R123). -/
def drawRow (x0 y0 : Nat) (row : Byte) (cv : Canvas) (r : Nat) : Canvas :=
  (List.range 8).foldl (drawPixel x0 ((y0 + r) % Config.fbHeight) row) cv

/-- A sprite of n rows whose bytes start at `base`, drawn at (x0, y0) (R122). -/
def drawSprite (m : Memory) (base x0 y0 n : Nat) (fb : FrameBuffer) : Canvas :=
  (List.range n).foldl (fun cv r => drawRow x0 y0 (m.read (base + r)) cv r) (fb, false)

end Sys2Proof.Machine
end

