-- ==== Sys2Proof/Machine/Flags.lean ====
section
/-! DEFINITION. The flag values written into VF (10_state.md R21), each from the operands' exact values. -/

namespace Sys2Proof.Machine

/-- A flag as the value VF receives: 1 or 0. -/
def flagByte (b : Bool) : Byte := if b then 1 else 0

/-- The carry of 8XY4: 1 iff a + b > 255 (R158). -/
def carryFlag (a b : Byte) : Byte := flagByte (decide (a.toNat + b.toNat > 255))

/-- "No borrow" of a - b: 0 iff a < b (R159, R161). -/
def noBorrowFlag (a b : Byte) : Byte := flagByte (decide ¬ a.toNat < b.toNat)

/-- The bit a right shift moves out: the least significant (R160). -/
def lsbFlag (a : Byte) : Byte := flagByte (a.getLsbD 0)

/-- The bit a left shift moves out: the most significant (R162). -/
def msbFlag (a : Byte) : Byte := flagByte (a.getLsbD 7)

/-- The flag of FX1E: 1 iff the new I exceeds 0xFFF (R181). -/
def indexFlag (i : Word) : Byte := flagByte (decide (i.toNat > 0x0FFF))

/-- A result in V[x], then a flag in VF, the flag last (R151, decision D14; log entry 10). -/
def State.setResultFlag (s : State) (x : Nibble) (result flag : Byte) : State := (s.setV x result).setV vf flag

end Sys2Proof.Machine
end

