-- ==== Sys2Proof/Machine/Alu.lean ====
section
/-! DEFINITION. The register and ALU instructions 6XNN, 7XNN, 8XY0 to 8XY7, 8XYE, CXNN (44_alu.md). -/

namespace Sys2Proof.Machine

/-- LD Vx, byte (R152). -/
def execLdByte (x : Nibble) (nn : Byte) (s : State) : Result := (s.setV x nn).done

/-- ADD Vx, byte (R153): modulo 256, no flag. -/
def execAddByte (x : Nibble) (nn : Byte) (s : State) : Result := (s.setV x (s.getV x + nn)).done

/-- LD Vx, Vy (R154). -/
def execLdReg (x y : Nibble) (s : State) : Result := (s.setV x (s.getV y)).done

/-- OR Vx, Vy (R155): VF is not reset (decision D15; log entry 11). -/
def execOrReg (x y : Nibble) (s : State) : Result := (s.setV x (s.getV x ||| s.getV y)).done

/-- AND Vx, Vy (R156): VF is not reset (decision D15; log entry 11). -/
def execAndReg (x y : Nibble) (s : State) : Result := (s.setV x (s.getV x &&& s.getV y)).done

/-- XOR Vx, Vy (R157): VF is not reset (decision D15; log entry 11). -/
def execXorReg (x y : Nibble) (s : State) : Result := (s.setV x (s.getV x ^^^ s.getV y)).done

/-- ADD Vx, Vy (R158): the sum modulo 256, then VF = carry. -/
def execAddReg (x y : Nibble) (s : State) : Result :=
  (s.setResultFlag x (s.getV x + s.getV y) (carryFlag (s.getV x) (s.getV y))).done

/-- SUB Vx, Vy (R159): Vx - Vy modulo 256, then VF = no borrow. -/
def execSubReg (x y : Nibble) (s : State) : Result :=
  (s.setResultFlag x (s.getV x - s.getV y) (noBorrowFlag (s.getV x) (s.getV y))).done

/-- SHR Vx (R160): Vx shifted in place, Y ignored (decision D13; log entry 9), then VF = the bit shifted out. -/
def execShr (x : Nibble) (s : State) : Result :=
  (s.setResultFlag x (s.getV x >>> 1) (lsbFlag (s.getV x))).done

/-- SUBN Vx, Vy (R161): Vy - Vx modulo 256, then VF = no borrow (decision D16; log entry 12). -/
def execSubnReg (x y : Nibble) (s : State) : Result :=
  (s.setResultFlag x (s.getV y - s.getV x) (noBorrowFlag (s.getV y) (s.getV x))).done

/-- SHL Vx (R162): Vx shifted in place, Y ignored (decision D13; log entry 9), then VF = the bit shifted out. -/
def execShl (x : Nibble) (s : State) : Result :=
  (s.setResultFlag x (s.getV x <<< 1) (msbFlag (s.getV x))).done

/-- RND Vx, byte (R163): the next free byte AND nn (log entry 4). -/
def execRnd (x : Nibble) (nn : Byte) (s : State) : Result :=
  ((s.setV x (Config.randomByte s.draws &&& nn)).countDraw).done

end Sys2Proof.Machine
end

