-- ==== Sys2Proof/Machine/Control.lean ====
section
/-! DEFINITION. The control transfers 00EE, 1NNN, 2NNN, BNNN (42_control_flow.md). -/

namespace Sys2Proof.Machine

/-- RET (R131): SP = 0 raises StackUnderflow; else the popped CALL address plus 2. -/
def execRet (s : State) : Result :=
  match s.pop with
  | none => s.takeFault (.stackUnderflow s.pc)
  | some (w, t) => t.jumpTo (w + 2)

/-- JP addr (R132). -/
def execJp (nnn : Addr12) (s : State) : Result := s.jumpTo (addrOperand nnn)

/-- CALL addr (R133): SP = 16 raises StackOverflow; else this CALL's own address is pushed. -/
def execCall (nnn : Addr12) (s : State) : Result :=
  match s.push s.pc with
  | none => s.takeFault (.stackOverflow s.pc)
  | some t => t.jumpTo (addrOperand nnn)

/-- JP V0, addr (R134): the sum in 16 bits, never reduced modulo 0x1000. -/
def execJpV0 (nnn : Addr12) (s : State) : Result := s.jumpTo (addrOperand nnn + wide (s.getV 0))

end Sys2Proof.Machine
end

