-- ==== Sys2Proof/Machine/Display.lean ====
section
/-! DEFINITION. The display instructions 00E0 and DXYN (41_display.md). -/

namespace Sys2Proof.Machine

/-- CLS (R121): every pixel 0, frame_changed set even if the buffer was clear (decision D20; log
entry 21). -/
def execCls (s : State) : Result := (s.setFb FrameBuffer.blank).done

/-- DRW Vx, Vy, n (R122): operands read first, the sprite read checked, VF written last; n = 0 draws
nothing (decisions D14, D19; log entries 10 and 16). -/
def execDrw (x y n : Nibble) (s : State) : Result :=
  s.guarded (checkRead s.pc s.base n.toNat)
    (let drawn := drawSprite s.mem s.base (s.getV x).toNat (s.getV y).toNat n.toNat s.fb
     ((s.setFb drawn.1).setV vf (flagByte drawn.2)).done)

end Sys2Proof.Machine
end

