-- ==== Sys2Proof/Machine/Index.lean ====
section
/-! DEFINITION. The index register and memory instructions ANNN, FX1E, FX29, FX33, FX55, FX65 (45_index_memory.md). -/

namespace Sys2Proof.Machine

/-- LD I, addr (R180). -/
def execLdI (nnn : Addr12) (s : State) : Result := (s.setI (addrOperand nnn)).done

/-- ADD I, Vx (R181): the sum modulo 2^16, then VF = "I above 0xFFF". -/
def execAddI (x : Nibble) (s : State) : Result :=
  let sum := s.i + wide (s.getV x)
  ((s.setI sum).setV vf (indexFlag sum)).done

/-- LD F, Vx (R182): Vx times 5, unmasked. -/
def execLdF (x : Nibble) (s : State) : Result := (s.setI (wide (s.getV x) * 5)).done

/-- LD B, Vx (R183): three digits at I, I+1, I+2, after the whole check; I is kept. -/
def execLdB (x : Nibble) (s : State) : Result :=
  s.guarded (checkWrite s.pc s.base 3)
    (s.setMem (s.mem.storeBytes s.base (decimalDigits (s.getV x)))).done

/-- LD [I], Vx (R184): V0 to Vx at I, after the whole check, then I + x + 1. -/
def execStoreRegs (x : Nibble) (s : State) : Result :=
  s.guarded (checkWrite s.pc s.base (regCount x))
    ((s.setMem (s.mem.storeBytes s.base (s.regRun x))).setI (s.i + BitVec.ofNat 16 (regCount x))).done

/-- LD Vx, [I] (R185): V0 to Vx from I, after the whole check, then I + x + 1. -/
def execLoadRegs (x : Nibble) (s : State) : Result :=
  s.guarded (checkRead s.pc s.base (regCount x))
    ((s.loadRun s.base (regCount x)).setI (s.i + BitVec.ofNat 16 (regCount x))).done

end Sys2Proof.Machine
end

