-- ==== Sys2Proof/Machine/Skip.lean ====
section
/-! DEFINITION. The conditional skips 3XNN, 4XNN, 5XY0, 9XYN, EX9E, EXA1 (43_skip.md). -/

namespace Sys2Proof.Machine

/-- A skip: PC + 4 when its condition holds, else PC + 2; the skipped word is not looked at (R106, R140). -/
def State.skipIf (s : State) (taken : Bool) : Result := s.advance (if taken then 4 else 2)

/-- A skip on the key named by V[x], taken when its flag is `want`; V[x] > 15 raises KeyIndexError (R145, R146). -/
def State.skipOnKey (s : State) (x : Nibble) (want : Bool) : Result :=
  match s.keyFlag (s.getV x) with
  | none => s.takeFault (.keyIndex (s.getV x) s.pc)
  | some pressed => s.skipIf (pressed == want)

/-- SE Vx, byte (R141). -/
def execSeByte (x : Nibble) (nn : Byte) (s : State) : Result := s.skipIf (s.getV x == nn)

/-- SNE Vx, byte (R142). -/
def execSneByte (x : Nibble) (nn : Byte) (s : State) : Result := s.skipIf (s.getV x != nn)

/-- SE Vx, Vy (R143). -/
def execSeReg (x y : Nibble) (s : State) : Result := s.skipIf (s.getV x == s.getV y)

/-- SNE Vx, Vy (R144). -/
def execSneReg (x y : Nibble) (s : State) : Result := s.skipIf (s.getV x != s.getV y)

/-- SKP Vx (R145). -/
def execSkp (x : Nibble) (s : State) : Result := s.skipOnKey x true

/-- SKNP Vx (R146). -/
def execSknp (x : Nibble) (s : State) : Result := s.skipOnKey x false

end Sys2Proof.Machine
end

