-- ==== Sys2Proof/Machine/Timer.lean ====
section
/-! DEFINITION. The timer and key-wait instructions FX07, FX0A, FX15, FX18 (46_timers_keys.md). The tick of the same
step follows each of them in `State.finish`. -/

namespace Sys2Proof.Machine

/-- LD Vx, DT (R200): DT as it is before this step's tick. -/
def execLdVxDt (x : Nibble) (s : State) : Result := (s.setV x s.dt).done

/-- LD Vx, K (R201): Blocked while no key is pressed, else the lowest-indexed pressed key (decision D40; log
entry 20). -/
def execLdVxK (x : Nibble) (s : State) : Result :=
  match s.lowestKey with
  | none => s.block
  | some k => (s.setV x (BitVec.ofNat 8 k)).done

/-- LD DT, Vx (R203). -/
def execLdDtVx (x : Nibble) (s : State) : Result := (s.setDt (s.getV x)).done

/-- LD ST, Vx (R204). -/
def execLdStVx (x : Nibble) (s : State) : Result := (s.setSt (s.getV x)).done

end Sys2Proof.Machine
end

