-- ==== Sys2Proof/Machine/Step.lean ====
section
/-! DEFINITION. The step (40_cycle.md R100): fetch, decode, execute, then the tick of a progressed step. -/

namespace Sys2Proof.Machine

/-- One step (R100). A fault of the fetch, the decode or the instruction is a next state with status Faulted (R221);
a Faulted block has no step (R111). -/
def step (s : State) : Host.Outcome State Fault Refusal :=
  match s.status with
  | .faulted f => .fault f
  | .running =>
    match s.fetch with
    | .error f => .next (s.raise f).finish
    | .ok w =>
      match decode w with
      | .error _ => .next (s.raise (.decodeError w s.pc)).finish
      | .ok i =>
        match exec i s with
        | .next t => .next t.finish
        | .fault f => .fault f
        | .refused r => .refused r

/-- `s` with one instruction of `nbits` bits `w` stored where the next fetch reads it: at PC, high byte first. -/
def State.withFetchWord (s : State) (nbits w : Nat) : State := s.placeWord (BitVec.ofNat 16 (w % 2 ^ nbits))

end Sys2Proof.Machine
end

