-- ==== Sys2Proof/Machine/HostIf.lean ====
section
/-! DEFINITION. The host's transactions with the block between steps (40_cycle.md R112 to R115): construction
(70_reset_and_hazards.md R250 to R253), key events, and rendering; and the codes of what it reports (60_exceptions.md
R231). -/

namespace Sys2Proof.Machine

/-! ### The error codes (R231; log entry 29) -/

/-- The code of LoadError, whatever its reason (R223, R231). -/
def LoadError.code : LoadError → Nat
  | .unreadable => 1
  | .tooLong _ => 1

/-- The image length a LoadError records; an image that cannot be read has none (R223, R250). -/
def LoadError.imageLength : LoadError → Option Nat
  | .unreadable => none
  | .tooLong length => some length

/-- The code of a fault of a step (R224 to R231). -/
def Fault.code : Fault → Nat
  | .decodeError _ _ => 2
  | .stackOverflow _ => 3
  | .stackUnderflow _ => 4
  | .memoryBounds _ _ _ => 5
  | .fontWrite _ _ => 6
  | .keyIndex _ _ => 7

/-! ### Construction -/

/-- The state of a block built with an image that fits: the reset state with the image from 0x200 (R40, R250, R253). -/
def State.ofImage (image : Bytes) : State :=
  State.reset.setMem (State.reset.mem.storeBytes Config.progBase image)

/-- construct(image): a state or a LoadError; `none` is an image that cannot be read (R250, R251, R252). -/
def construct : Option Bytes → Except LoadError State
  | none => .error .unreadable
  | some image => if imageFits image then .ok (State.ofImage image) else .error (.tooLong image.length)

/-! ### Key events and rendering -/

/-- A key event of the host (R113). -/
inductive KeyEvent where
  /-- key_press(k): `key[k] <- 1`. -/
  | press (k : Nibble)
  /-- key_release(k): `key[k] <- 0`. -/
  | release (k : Nibble)
  deriving DecidableEq, Repr

/-- key[k] <- b. -/
def State.setKey (s : State) (k : Nibble) (b : Bool) : State := { s with keys := s.keys.set k.toNat b k.isLt }

/-- One key event (R113). -/
def State.keyEvent (s : State) : KeyEvent → State
  | .press k => s.setKey k true
  | .release k => s.setKey k false

/-- The host's poll between two steps: any number of key events in any order (R112, R115). -/
def State.poll (s : State) (events : List KeyEvent) : State := events.foldl State.keyEvent s

/-- The host renders if the frame buffer was written, and clears `frame_changed` (R34, R113, R114). -/
def State.render (s : State) : State := if s.frameChanged then { s with frameChanged := false } else s

end Sys2Proof.Machine
end

