-- ==== Sys2Proof/Machine/HostLoop.lean ====
section
/-! DEFINITION. The host's run (40_cycle.md R114): construct, then poll, step, notify, report, render; what reaches the
presentation is recorded in order (log entry 5). -/

namespace Sys2Proof.Machine

/-- What one `update()` of the host does: the key events it issues, and whether it returns true (R113, R114). -/
structure HostUpdate where
  events : List KeyEvent
  live : Bool
  deriving DecidableEq, Repr

/-- What the host passes on to the presentation (R114). -/
inductive HostSignal where
  /-- The notification of a tone (R108). -/
  | tone
  /-- draw(), which reads the frame buffer (fb_read, R113). -/
  | draw (fb : FrameBuffer)
  deriving DecidableEq, Repr

/-- How a run of the host stands (R114, R117). -/
inductive HostEnd where
  /-- construct(image) raised LoadError, which is reported: there is no state (R223, R251). -/
  | loadError (e : LoadError)
  /-- A step faulted: the host stops and reports the fault, the block as the step left it. -/
  | faulted (f : Fault) (s : State)
  /-- `update()` returned false, after its key events. -/
  | stopped (s : State)
  /-- The loop has not ended: `s` is the state before the next `update()`. -/
  | going (s : State)
  /-- An instruction without a meaning; no step answers this. -/
  | refused (r : Refusal)
  deriving DecidableEq, Repr

/-- The code the host reports when a run ends by an error (R114, R231). -/
def HostEnd.reportCode : HostEnd → Option Nat
  | .loadError e => some e.code
  | .faulted f _ => some f.code
  | .stopped _ => none
  | .going _ => none
  | .refused _ => none

/-- A run of the host: the signals it gave, oldest first, and how it stands. -/
structure HostRun where
  signals : List HostSignal
  ended : HostEnd
  deriving DecidableEq, Repr

/-- Signals given before a run. -/
def HostRun.after (r : HostRun) (signals : List HostSignal) : HostRun := { r with signals := signals ++ r.signals }

/-- `if tone = 1 then notify the tone` (R114). -/
def State.toneSignal (s : State) : List HostSignal := if s.tone then [.tone] else []

/-- `if frame_changed = 1 then draw()` (R114). -/
def State.drawSignal (s : State) : List HostSignal := if s.frameChanged then [.draw s.fb] else []

/-- The loop of the host, one `update()` for each iteration (R114): its key events, the stop when it returns false, one
step, the tone, the report of a fault, the render. A block that is already Faulted has no step (R111). -/
def hostLoop : List HostUpdate → State → HostRun
  | [], s => ⟨[], .going s⟩
  | u :: us, s =>
    let polled := s.poll u.events
    if u.live then
      match step polled with
      | .next t =>
        match t.outcome with
        | .fault f => ⟨t.toneSignal, .faulted f t⟩
        | .notStepped | .progressed | .blocked =>
          (hostLoop us t.render).after (t.toneSignal ++ t.drawSignal)
      | .fault f => ⟨[], .faulted f polled⟩
      | .refused r => ⟨[], .refused r⟩
    else ⟨[], .stopped polled⟩

/-- `host()`: the image constructed, then the loop; LoadError stops it (R114, R223). -/
def host (image : Option Bytes) (updates : List HostUpdate) : HostRun :=
  match construct image with
  | .error e => ⟨[], .loadError e⟩
  | .ok s => hostLoop updates s

end Sys2Proof.Machine
end

