-- ==== Sys2Proof/Safety.lean ====
section
/-! DEFINITION. The terms the statements use: the instruction at PC, what an instruction may touch and what it leaves,
the invariant of the block, and the states it can reach. -/

namespace Sys2Proof.Machine

/-- The instruction at PC, as the fetch reads it and the decoder names it (40_cycle.md R101, R102). -/
def State.runs (s : State) (i : Instr) : Prop :=
  s.pc.toNat + 1 < Config.memSize ∧
    decode (wordOfBytes (s.mem.read s.pc.toNat) (s.mem.read (s.pc.toNat + 1))) = .ok i

/-- The pieces of state an instruction may change besides PC and the step's outcome; all else is its frame. -/
structure Footprint where
  /-- The general registers it writes. -/
  regs : List Nibble := []
  /-- It writes I. -/
  index : Bool := false
  /-- It writes the call stack or SP. -/
  stack : Bool := false
  /-- It writes DT. -/
  delay : Bool := false
  /-- It writes ST. -/
  sound : Bool := false
  /-- It writes the frame buffer and frame_changed. -/
  display : Bool := false
  /-- It uses a random draw. -/
  draw : Bool := false
  /-- The first byte of memory it stores to. -/
  storeAt : Nat := 0
  /-- How many bytes it stores. -/
  storeLen : Nat := 0

/-- From `s` to `t` nothing outside the footprint has changed: every other register, every byte of memory outside the
stored ones, every special register, the key state, the run status and the tone output. -/
def Leaves (p : Footprint) (s t : State) : Prop :=
  (∀ r, r ∉ p.regs → t.getV r = s.getV r) ∧
  (p.index = false → t.i = s.i) ∧
  (p.stack = false → t.stack = s.stack ∧ t.sp = s.sp) ∧
  (p.delay = false → t.dt = s.dt) ∧
  (p.sound = false → t.st = s.st) ∧
  (p.display = false → t.fb = s.fb ∧ t.frameChanged = s.frameChanged) ∧
  (p.draw = false → t.draws = s.draws) ∧
  (∀ a, (a < p.storeAt ∨ p.storeAt + p.storeLen ≤ a) → t.mem.read a = s.mem.read a) ∧
  t.keys = s.keys ∧ t.status = s.status ∧ t.tone = s.tone

/-- `i` completes from `s`: `exec` answers a next state that is Progressed, with PC at `pc`, nothing changed outside
the footprint, and `post` of it. -/
def Completes (i : Instr) (s : State) (pc : Word) (p : Footprint) (post : State → Prop) : Prop :=
  ∃ t, exec i s = .next t ∧ t.outcome = .progressed ∧ t.pc = pc ∧ Leaves p s t ∧ post t

/-- `i` raises `f` from `s`: the next state differs in its status and outcome alone (60_exceptions.md R221, R222). -/
def Faults (i : Instr) (s : State) (f : Fault) : Prop :=
  exec i s = .next { s with status := .faulted f, outcome := .fault f }

/-- A set bit of the n-row sprite at I, drawn at (V[x], V[y]), falls on pixel (px, py): row r and column c of it, bit 7
leftmost, every coordinate wrapped (41_display.md R122, R123). -/
def SpriteCovers (s : State) (x y n : Nibble) (px py : Nat) : Prop :=
  ∃ r c, r < n.toNat ∧ c < 8 ∧ (s.mem.read (s.base + r)).getLsbD (7 - c) = true ∧
    px = ((s.getV x).toNat + c) % 64 ∧ py = ((s.getV y).toNat + r) % 32

/-- Two states a sprite draw cannot tell apart but for VF: the same pixels, memory, I and coordinates (R124). -/
def SameDraw (s t : State) (x y : Nibble) : Prop :=
  t.fb = s.fb ∧ t.mem = s.mem ∧ t.i = s.i ∧ t.getV x = s.getV x ∧ t.getV y = s.getV y

/-- A timer after a tick that found `d` in it (40_cycle.md R107). -/
def ticked (d : Byte) : Byte := BitVec.ofNat 8 (d.toNat - 1)

/-- The invariant of the block. -/
structure Inv (s : State) : Prop where
  /-- Memory is in its canonical form (10_state.md R37). -/
  memory : s.mem.wf
  /-- No byte of the font region was ever written (20_memory.md R57). -/
  font : ∀ a, a < Config.fontSize → s.mem.read a = resetByte a
  /-- PC holds a value some instruction can produce (10_state.md R26). -/
  pc : s.pc.toNat ≤ 0x10FE
  /-- Every stack entry is the address of a fetched word (42_control_flow.md R131). -/
  entries : ∀ (k : Nat) (h : k < 16), (s.stack[k]'h).toNat ≤ 0xFFE
  /-- The block is Faulted exactly when its last step's outcome was that fault (60_exceptions.md R221). -/
  faulted : ∀ f, s.status = .faulted f ↔ s.outcome = .fault f
  /-- A tone is the output of a progressed step whose tick left ST = 0 (40_cycle.md R108). -/
  tone : s.tone = true → s.outcome = .progressed ∧ s.st = 0

/-- The states of a block: built from an image, stepped, and acted on by the host between steps (40_cycle.md R112). -/
inductive Reachable : State → Prop where
  | construct (image : Bytes) (s : State) : Machine.construct (some image) = .ok s → Reachable s
  | step (s t : State) : Reachable s → Machine.step s = .next t → Reachable t
  | key (s : State) (e : KeyEvent) : Reachable s → Reachable (s.keyEvent e)
  | render (s : State) : Reachable s → Reachable s.render

end Sys2Proof.Machine
end

