-- ==== Sys2Proof/Certificates/Slice0/Obligations.lean ====
section
/-! DEFINITION. The statements about the CHIP-8 core, each with the rule it formalises in its docstring. -/

open Sys2Proof Sys2Proof.Machine

/-! ### Construction (70_reset_and_hazards.md section 1, 10_state.md section 12) -/

/-- The state after construction of an empty image, field by field (10_state.md section 12), the sixteen glyphs of the
font as 10_state.md section 10 writes them out. The font bytes, the blank
frame buffer, `frame_changed` and the run status are the spec's own decisions D31, D24, D20, D2. That construction of an
empty image is `State.reset` is the model's choice (log entry 6), as are the outputs and the draw counter in it (log
entries 3 and 4). -/
def Obligations.ResetStateValues : Prop :=
  (List.range 16).map (fun d => (List.range 5).map fun k => State.reset.mem.read (5 * d + k)) =
    [[0xF0, 0x90, 0x90, 0x90, 0xF0], [0x20, 0x60, 0x20, 0x20, 0x70], [0xF0, 0x10, 0xF0, 0x80, 0xF0],
     [0xF0, 0x10, 0xF0, 0x10, 0xF0], [0x90, 0x90, 0xF0, 0x10, 0x10], [0xF0, 0x80, 0xF0, 0x10, 0xF0],
     [0xF0, 0x80, 0xF0, 0x90, 0xF0], [0xF0, 0x10, 0x20, 0x40, 0x40], [0xF0, 0x90, 0xF0, 0x90, 0xF0],
     [0xF0, 0x90, 0xF0, 0x10, 0xF0], [0xF0, 0x90, 0xF0, 0x90, 0x90], [0xE0, 0x90, 0xE0, 0x90, 0xE0],
     [0xF0, 0x80, 0x80, 0x80, 0xF0], [0xE0, 0x90, 0x90, 0x90, 0xE0], [0xF0, 0x80, 0xF0, 0x80, 0xF0],
     [0xF0, 0x80, 0xF0, 0x80, 0x80]] ∧
  (∀ a, 0x50 ≤ a → a < 0x1000 → State.reset.mem.read a = 0) ∧
  (∀ r, State.reset.getV r = 0) ∧ State.reset.i = 0 ∧ State.reset.pc = 0x200 ∧ State.reset.sp = 0 ∧
  (∀ (k : Nat) (h : k < 16), State.reset.stack[k]'h = 0) ∧ State.reset.dt = 0 ∧ State.reset.st = 0 ∧
  (∀ (k : Nat) (h : k < 16), State.reset.keys[k]'h = false) ∧ (∀ px py, pixel State.reset.fb px py = false) ∧
  State.reset.frameChanged = false ∧ State.reset.status = .running ∧ construct (some []) = .ok State.reset

/-- An image of at most 3584 bytes is constructed: its bytes from 0x200 on, every other byte and every other piece of
state as at reset (the outputs and the draw counter by log entries 3 and 4), memory in its canonical form (log entry 7;
70_reset_and_hazards.md section 1, construct). -/
def Obligations.ConstructLoadsImage : Prop :=
  ∀ image : Bytes, image.length ≤ 3584 → ∃ s, construct (some image) = .ok s ∧
    (∀ (j : Nat) (h : j < image.length), s.mem.read (0x200 + j) = image[j]) ∧
    (∀ a, (a < 0x200 ∨ 0x200 + image.length ≤ a) → s.mem.read a = State.reset.mem.read a) ∧
    s.mem.wf ∧ { s with mem := State.reset.mem } = State.reset

/-- An image that cannot be read, or is longer than 3584 bytes, gives LoadError, code 1, and no state; the error records
the length of an image that is too long, and the host that was given the image reports it and takes no step
(70_reset_and_hazards.md section 1, 60_exceptions.md section 2, 40_cycle.md section 4; decisions D3, D30). -/
def Obligations.ConstructRejectsBadImage : Prop :=
  ∀ image : Option Bytes, (∀ bytes, image = some bytes → 3584 < bytes.length) → ∃ e, construct image = .error e ∧
    (image = none → e = .unreadable) ∧ (∀ bytes, image = some bytes → e = .tooLong bytes.length) ∧
    e.code = 1 ∧ e.imageLength = image.map List.length ∧
    ∀ us, host image us = ⟨[], .loadError e⟩ ∧ (host image us).ended.reportCode = some 1

/-- A program image of two bytes or more is constructed with PC at 0x200, and the first step fetches its first two
bytes, the first one high (70_reset_and_hazards.md section 1). -/
def Obligations.FirstStepFetchesImage : Prop :=
  ∀ (hi lo : Byte) (rest : Bytes), (hi :: lo :: rest).length ≤ 3584 → ∃ s, construct (some (hi :: lo :: rest)) = .ok s ∧
    s.pc = 0x200 ∧ s.status = .running ∧ s.fetch = .ok (wordOfBytes hi lo)

/-! ### Encoding (30_encoding.md) -/

/-- Decoding the canonical word of any instruction, or its two bytes in memory order, gives the instruction back with
every operand at every value (30_encoding.md sections 1 to 3 and 6). -/
def Obligations.DecodeOfEncode : Prop :=
  ∀ i : Instr, i.wellFormed = true → decode (encode i) = .ok i ∧ decodeBytes (encodeBytes i) = .ok (i, [])

/-- R86: the opcode map has 34 rows, no word matches two of them, the decoder gives an instruction only to a word of
that instruction's row, and gives every word of a row an instruction of that row. -/
def Obligations.DecodeMatchesOpcodeMap : Prop :=
  opcodeMap.length = 34 ∧
  opcodeMap.Pairwise (fun p q => ∀ w : Word, ¬ (w &&& p.mask = p.value ∧ w &&& q.mask = q.value)) ∧
  (∀ (w : Word) (i : Instr), decode w = .ok i → opRow i ∈ opcodeMap ∧ w &&& (opRow i).mask = (opRow i).value) ∧
  (∀ (w : Word) (i : Instr), w &&& (opRow i).mask = (opRow i).value → ∃ j, decode w = .ok j ∧ opRow j = opRow i)

/-- The bits no rule reads are ignored: bits 11:4 of family 0x0, bits 3:0 of family 0x9, bits 7:4 of the shifts
(30_encoding.md section 2; for the shifts, decision D13). -/
def Obligations.DecodeIgnoresUnreadBits : Prop :=
  (∀ w : Word, fieldF w = 0x0 → fieldN w = 0x0 → decode w = .ok .cls) ∧
  (∀ w : Word, fieldF w = 0x0 → fieldN w = 0xE → decode w = .ok .ret) ∧
  (∀ w : Word, fieldF w = 0x9 → decode w = .ok (.sneReg (fieldX w) (fieldY w))) ∧
  (∀ w : Word, fieldF w = 0x8 → fieldN w = 0x6 → decode w = .ok (.shr (fieldX w))) ∧
  (∀ w : Word, fieldF w = 0x8 → fieldN w = 0xE → decode w = .ok (.shl (fieldX w)))

/-- The decoder refuses exactly the illegal words, family by family (30_encoding.md section 4). -/
def Obligations.IllegalWordsExactly : Prop :=
  ∀ w : Word, decode w = .error (.illegal w) ↔
    (fieldF w = 0x0 ∧ fieldN w ∉ [0x0, 0xE]) ∨
    (fieldF w = 0x5 ∧ fieldN w ≠ 0x0) ∨
    (fieldF w = 0x8 ∧ fieldN w ∈ [0x8, 0x9, 0xA, 0xB, 0xC, 0xD, 0xF]) ∨
    (fieldF w = 0xE ∧ fieldNN w ∉ [0x9E, 0xA1]) ∨
    (fieldF w = 0xF ∧ fieldNN w ∉ [0x07, 0x0A, 0x15, 0x18, 0x1E, 0x29, 0x33, 0x55, 0x65])

/-- A word written out from the spec's encoding for each of the sixteen families w[15:12] decodes to the instruction it
stands for (30_encoding.md sections 3 and 6). -/
def Obligations.SampleWordsDecode : Prop :=
  decode 0x00E0 = .ok .cls ∧ decode 0x00EE = .ok .ret ∧ decode 0x1234 = .ok (.jp 0x234) ∧
  decode 0x2300 = .ok (.call 0x300) ∧ decode 0x3342 = .ok (.seByte 0x3 0x42) ∧ decode 0x4342 = .ok (.sneByte 0x3 0x42) ∧
  decode 0x5120 = .ok (.seReg 0x1 0x2) ∧ decode 0x6A42 = .ok (.ldByte 0xA 0x42) ∧
  decode 0x72FF = .ok (.addByte 0x2 0xFF) ∧ decode 0x8125 = .ok (.subReg 0x1 0x2) ∧
  decode 0x9120 = .ok (.sneReg 0x1 0x2) ∧ decode 0xA123 = .ok (.ldI 0x123) ∧ decode 0xBFFF = .ok (.jpV0 0xFFF) ∧
  decode 0xC30F = .ok (.rnd 0x3 0x0F) ∧
  decode 0xD125 = .ok (.drw 0x1 0x2 0x5) ∧ decode 0xE59E = .ok (.skp 0x5) ∧ decode 0xF20A = .ok (.ldVxK 0x2) ∧
  decode 0xF255 = .ok (.storeRegs 0x2)

/-! ### The step (40_cycle.md) -/

/-- When the two bytes at PC decode to `i`, the step of a running block is `exec i`, then `State.finish` (40_cycle.md
section 1, the pseudocode of step). -/
def Obligations.StepRunsDecodedInstruction : Prop :=
  ∀ (s : State) (i : Instr), s.status = .running → s.pc.toNat + 1 < 0x1000 →
    decodeBytes [s.mem.read s.pc.toNat, s.mem.read (s.pc.toNat + 1)] = .ok (i, []) →
    step s = (match exec i s with
      | .next t => .next t.finish
      | .fault f => .fault f
      | .refused r => .refused r)

/-- What the step adds after `exec`: a progressed instruction is followed by the tick, which decrements each non-zero
timer and puts out the tone exactly when it found ST = 1; any other outcome puts out no tone and leaves the rest
(40_cycle.md section 2; decisions D25, D26). -/
def Obligations.FinishTicksProgressedSteps : Prop :=
  (∀ s : State, s.outcome = .progressed →
    s.finish = { s with dt := ticked s.dt, st := ticked s.st, tone := decide (s.st = 1) }) ∧
  (∀ s : State, s.outcome ≠ .progressed → s.finish = { s with tone := false })

/-- R52: the fetch reads the byte at PC as bits 15:8 of the word and the byte at PC + 1 as bits 7:0, whenever both lie
in memory. -/
def Obligations.FetchIsBigEndian : Prop :=
  ∀ s : State, s.pc.toNat + 1 < 0x1000 → ∃ w, s.fetch = .ok w ∧
    w.extractLsb' 8 8 = s.mem.read s.pc.toNat ∧ w.extractLsb' 0 8 = s.mem.read (s.pc.toNat + 1)

/-- A fetch beyond 0xFFE raises MemoryBoundsError with the first failing address, and nothing else changes
(20_memory.md section 4; decisions D4, D8). -/
def Obligations.FetchBeyondMemoryFaults : Prop :=
  ∀ s : State, s.status = .running → ¬ s.pc.toNat + 1 < 0x1000 → ∃ a,
    (s.pc.toNat = 0xFFF → a = 0x1000) ∧ (s.pc.toNat ≠ 0xFFF → a = s.pc.toNat) ∧
    step s = .next { s with status := .faulted (.memoryBounds a .fetch s.pc),
                            outcome := .fault (.memoryBounds a .fetch s.pc), tone := false }

/-- A word the decoder refuses raises DecodeError(w, PC), and nothing else changes (40_cycle.md section 1,
60_exceptions.md section 2; decision D3). -/
def Obligations.IllegalWordRaisesDecodeError : Prop :=
  ∀ (s : State) (w : Word), s.status = .running → s.fetch = .ok w → decode w = .error (.illegal w) →
    step s = .next { s with status := .faulted (.decodeError w s.pc), outcome := .fault (.decodeError w s.pc),
                            tone := false }

/-- A Faulted block has no step: `step` answers a fault and no state (40_cycle.md section 3; decision D27; log
entry 1). -/
def Obligations.FaultedBlockHasNoStep : Prop :=
  ∀ (s : State) (f : Fault), s.status = .faulted f → step s = .fault f

/-- A running block always steps, to Progressed, to Blocked, or to a fault recorded in its status (40_cycle.md
section 1, outcomes; decision D2). -/
def Obligations.RunningBlockAlwaysSteps : Prop :=
  ∀ s : State, s.status = .running → ∃ t, step s = .next t ∧
    ((t.outcome = .progressed ∧ t.status = .running) ∨ (t.outcome = .blocked ∧ t.status = .running) ∨
      ∃ f, t.outcome = .fault f ∧ t.status = .faulted f)

/-- R109: a Blocked step is an FX0A with no key pressed, writes no state, puts out no tone, and leaves the same word
to be fetched by the next step. -/
def Obligations.BlockedStepWritesNothing : Prop :=
  ∀ s t : State, s.status = .running → step s = .next t → t.outcome = .blocked →
    (∃ x, s.runs (.ldVxK x)) ∧ (∀ (k : Nat) (h : k < 16), s.keys[k]'h = false) ∧
    t = { s with outcome := .blocked, tone := false } ∧ t.fetch = s.fetch

/-- A faulting step writes nothing but the run status (and the step's outputs): no tick, no tone, PC unchanged
(60_exceptions.md section 1; decisions D2, D36). -/
def Obligations.FaultingStepWritesOnlyStatus : Prop :=
  ∀ (s t : State) (f : Fault), s.status = .running → step s = .next t → t.status = .faulted f →
    t = { s with status := .faulted f, outcome := .fault f, tone := false }

/-- In a progressed step the tick runs after the instruction, on DT and ST as FX15 and FX18 have just written them or
as they were, and the tone is put out exactly when it finds ST = 1 (40_cycle.md section 2; decisions D25, D26). -/
def Obligations.ProgressedStepTicksTimers : Prop :=
  ∀ (s t : State) (i : Instr), s.status = .running → s.runs i → step s = .next t → t.outcome = .progressed →
    ((∀ x, i ≠ .ldDtVx x) → t.dt = ticked s.dt) ∧ (∀ x, i = .ldDtVx x → t.dt = ticked (s.getV x)) ∧
    ((∀ x, i ≠ .ldStVx x) → t.st = ticked s.st ∧ (t.tone = true ↔ s.st = 1)) ∧
    (∀ x, i = .ldStVx x → t.st = ticked (s.getV x) ∧ (t.tone = true ↔ s.getV x = 1))

/-- The random draw is used by CXNN alone: every other instruction does the same whatever draws were used before
(40_cycle.md section 5; decision D23; the counter is the model's own, log entry 4). -/
def Obligations.OnlyRandomReadsTheDraw : Prop :=
  ∀ (i : Instr) (s t : State) (d : Nat), (∀ x nn, i ≠ .rnd x nn) → exec i s = .next t →
    t.draws = s.draws ∧ exec i { s with draws := d } = .next { t with draws := d }

/-! ### Invariants and whole-machine rules -/

/-- The state after construction of an empty image meets the invariant of the block (its clauses about the outputs by
log entry 3, about the form of memory by log entry 7). -/
def Obligations.ResetMeetsInvariant : Prop := Inv State.reset

/-- Every step keeps the invariant: memory canonical, the font never written, PC at most 0x10FE, stack entries the
addresses of fetched words, status and outcome in agreement, a tone only after a tick that emptied ST (20_memory.md section 4, 10_state.md section 3,
40_cycle.md section 2; decisions D5, D9; the form of memory and the outputs in State by log entries 3 and 7). -/
def Obligations.StepKeepsInvariant : Prop :=
  ∀ s t : State, Inv s → step s = .next t → Inv t

/-- Every state a block can reach, from any image that fits and under any key events and renders of the host between
steps, meets the invariant (40_cycle.md section 4; host operations by log entry 5; the clauses about the outputs held in
State by log entry 3, about the form of memory by log entry 7). -/
def Obligations.ReachableStatesMeetInvariant : Prop :=
  ∀ s : State, Reachable s → Inv s

/-- No step, from any state, changes a byte of the font region or a key, and none writes outside memory (20_memory.md
section 4, 10_state.md section 6; decision D5). -/
def Obligations.StepKeepsFontAndKeys : Prop :=
  ∀ s t : State, step s = .next t → t.keys = s.keys ∧
    (∀ a, (a < 0x50 ∨ 0x1000 ≤ a) → t.mem.read a = s.mem.read a)

/-- Each part of the state has its writers among the instructions, that is under `exec`, before the tick of the step
changes DT and ST (log entry 2): memory FX33 and FX55; the frame buffer and frame_changed 00E0 and DXYN (frame_changed by
decision D20, log entry 21); the call stack 2NNN and 00EE; I ANNN, FX1E, FX29, FX55, FX65; DT FX15; ST FX18 (20_memory.md
section 3, 10_state.md sections 2, 4, 5, 7, 8). -/
def Obligations.EachPartHasItsWriters : Prop :=
  ∀ (i : Instr) (s t : State), exec i s = .next t →
    (t.mem = s.mem ∨ ∃ x, i = .ldB x ∨ i = .storeRegs x) ∧
    ((t.fb = s.fb ∧ t.frameChanged = s.frameChanged) ∨ i = .cls ∨ ∃ x y n, i = .drw x y n) ∧
    ((t.stack = s.stack ∧ t.sp = s.sp) ∨ i = .ret ∨ ∃ nnn, i = .call nnn) ∧
    (t.i = s.i ∨ (∃ nnn, i = .ldI nnn) ∨ ∃ x, i = .addI x ∨ i = .ldF x ∨ i = .storeRegs x ∨ i = .loadRegs x) ∧
    (t.dt = s.dt ∨ ∃ x, i = .ldDtVx x) ∧ (t.st = s.st ∨ ∃ x, i = .ldStVx x)

/-- VF changes only under an instruction that writes a flag, or that names VF as its destination (10_state.md
section 1). -/
def Obligations.FlagRegisterHasItsWriters : Prop :=
  ∀ (i : Instr) (s t : State), exec i s = .next t → t.getV 15 ≠ s.getV 15 →
    (∃ x y, i = .addReg x y ∨ i = .subReg x y ∨ i = .subnReg x y) ∨ (∃ x, i = .shr x ∨ i = .shl x ∨ i = .addI x) ∨
    (∃ x y n, i = .drw x y n) ∨
    (∃ nn, i = .ldByte 15 nn ∨ i = .addByte 15 nn ∨ i = .rnd 15 nn) ∨
    (∃ y, i = .ldReg 15 y ∨ i = .orReg 15 y ∨ i = .andReg 15 y ∨ i = .xorReg 15 y) ∨
    i = .ldVxDt 15 ∨ i = .ldVxK 15 ∨ i = .loadRegs 15

/-- A store of FX55 over the next instruction is what the next step fetches: with I = PC + 2 and at least V0 and V1
stored, the next word is V0 then V1 (20_memory.md section 8; decision D39). -/
def Obligations.StoreIsSeenByNextFetch : Prop :=
  ∀ (s : State) (x : Nibble), s.mem.wf → s.base = s.pc.toNat + 2 → 1 ≤ x.toNat → 0x50 ≤ s.base →
    s.base + x.toNat + 1 ≤ 0x1000 →
    ∃ t, exec (.storeRegs x) s = .next t ∧ t.finish.fetch = .ok (wordOfBytes (s.getV 0) (s.getV 1))

/-! ### Control transfer (42_control_flow.md) -/

/-- R132: 1NNN decodes to JP and sets PC to NNN, with no check of the target; nothing else changes. -/
def Obligations.JumpSetsPc : Prop :=
  (∀ w : Word, fieldF w = 0x1 → decode w = .ok (.jp (fieldNNN w))) ∧
  ∀ (nnn : Addr12) (s : State), Completes (.jp nnn) s (nnn.zeroExtend 16) {} (fun t => t.pc.toNat = nnn.toNat)

/-- BNNN sets PC to NNN plus V0, exact and never reduced modulo 0x1000 (42_control_flow.md section 2; decisions D8,
D9). -/
def Obligations.JumpAddsV0 : Prop :=
  ∀ (nnn : Addr12) (s : State), ∃ p : Word, p.toNat = nnn.toNat + (s.getV 0).toNat ∧
    Completes (.jpV0 nnn) s p {} (fun _ => True)

/-- 2NNN with SP below 16 stores its own address at stack[SP], adds one to SP and sets PC to NNN (42_control_flow.md
section 2; decision D11). -/
def Obligations.CallPushesItsAddress : Prop :=
  ∀ (nnn : Addr12) (s : State) (h : s.sp.val < 16),
    Completes (.call nnn) s (nnn.zeroExtend 16) { stack := true } (fun t =>
      t.stack[s.sp.val]'h = s.pc ∧ t.sp.val = s.sp.val + 1 ∧
      ∀ (k : Nat) (hk : k < 16), k ≠ s.sp.val → t.stack[k]'hk = s.stack[k]'hk)

/-- 00EE with SP above 0 takes one from SP and sets PC to the entry there plus 2; the entry is kept
(42_control_flow.md section 2; decisions D11, D12). -/
def Obligations.ReturnResumesAfterCall : Prop :=
  ∀ (s : State) (h : s.sp.val - 1 < 16), 0 < s.sp.val →
    Completes .ret s (s.stack[s.sp.val - 1]'h + 2) { stack := true } (fun t =>
      t.stack = s.stack ∧ t.sp.val + 1 = s.sp.val)

/-- The 17th pending call raises StackOverflow, a return with no pending call StackUnderflow, and nothing else changes
(42_control_flow.md section 2, 60_exceptions.md section 2; decision D11). -/
def Obligations.StackBoundsFault : Prop :=
  (∀ (nnn : Addr12) (s : State), s.sp.val = 16 → Faults (.call nnn) s (.stackOverflow s.pc)) ∧
  (∀ s : State, s.sp.val = 0 → Faults .ret s (.stackUnderflow s.pc))

/-- A call, then any code that leaves SP and the pushed entry as the call left them, then a return: PC is the call's
address plus 2, and SP is what it was (42_control_flow.md section 3). -/
def Obligations.CallThenReturn : Prop :=
  ∀ (nnn : Addr12) (s t u : State) (h : s.sp.val < 16), exec (.call nnn) s = .next t → u.sp = t.sp →
    u.stack[s.sp.val]'h = t.stack[s.sp.val]'h → ∃ v, exec .ret u = .next v ∧ v.outcome = .progressed ∧
      v.pc = s.pc + 2 ∧ v.sp = s.sp

/-! ### Skips (43_skip.md) -/

/-- R141, R142: 3XNN adds 4 to PC when V[x] = NN and 2 otherwise, 4XNN the other way round; nothing else changes. -/
def Obligations.SkipOnByte : Prop :=
  (∀ w : Word, fieldF w = 0x3 → decode w = .ok (.seByte (fieldX w) (fieldNN w))) ∧
  (∀ w : Word, fieldF w = 0x4 → decode w = .ok (.sneByte (fieldX w) (fieldNN w))) ∧
  ∀ (x : Nibble) (nn : Byte) (s : State),
    Completes (.seByte x nn) s (s.pc + if (s.getV x).toNat = nn.toNat then 4 else 2) {} (fun _ => True) ∧
    Completes (.sneByte x nn) s (s.pc + if (s.getV x).toNat = nn.toNat then 2 else 4) {} (fun _ => True)

/-- R143, R144: 5XY0 adds 4 to PC when V[x] = V[y] and 2 otherwise, 9XYN the other way round for any N; 5XYk with
k ≠ 0 is illegal; nothing else changes. -/
def Obligations.SkipOnRegisters : Prop :=
  (∀ w : Word, fieldF w = 0x5 → fieldN w = 0x0 → decode w = .ok (.seReg (fieldX w) (fieldY w))) ∧
  (∀ w : Word, fieldF w = 0x5 → fieldN w ≠ 0x0 → decode w = .error (.illegal w)) ∧
  (∀ w : Word, fieldF w = 0x9 → decode w = .ok (.sneReg (fieldX w) (fieldY w))) ∧
  ∀ (x y : Nibble) (s : State),
    Completes (.seReg x y) s (s.pc + if (s.getV x).toNat = (s.getV y).toNat then 4 else 2) {} (fun _ => True) ∧
    Completes (.sneReg x y) s (s.pc + if (s.getV x).toNat = (s.getV y).toNat then 2 else 4) {} (fun _ => True)

/-- EX9E skips when the key named by V[x] is pressed, EXA1 when it is not, for V[x] up to 15 (43_skip.md section 2). -/
def Obligations.SkipOnKeyState : Prop :=
  ∀ (x : Nibble) (s : State) (h : (s.getV x).toNat < 16),
    Completes (.skp x) s (s.pc + if s.keys[(s.getV x).toNat]'h = true then 4 else 2) {} (fun _ => True) ∧
    Completes (.sknp x) s (s.pc + if s.keys[(s.getV x).toNat]'h = true then 2 else 4) {} (fun _ => True)

/-- EX9E and EXA1 with V[x] above 15 raise KeyIndexError, and nothing else changes (43_skip.md section 2,
60_exceptions.md section 2; decision D22). -/
def Obligations.KeyIndexAboveFifteenFaults : Prop :=
  ∀ (x : Nibble) (s : State), 15 < (s.getV x).toNat →
    Faults (.skp x) s (.keyIndex (s.getV x) s.pc) ∧ Faults (.sknp x) s (.keyIndex (s.getV x) s.pc)

/-! ### Registers and ALU (44_alu.md) -/

/-- R152, R153, R154: 6XNN sets V[x] to NN, 7XNN adds NN modulo 256 with no flag, 8XY0 copies V[y]; only V[x] and PC
change. -/
def Obligations.LoadAddAndCopy : Prop :=
  (∀ w : Word, fieldF w = 0x6 → decode w = .ok (.ldByte (fieldX w) (fieldNN w))) ∧
  (∀ w : Word, fieldF w = 0x7 → decode w = .ok (.addByte (fieldX w) (fieldNN w))) ∧
  (∀ w : Word, fieldF w = 0x8 → fieldN w = 0x0 → decode w = .ok (.ldReg (fieldX w) (fieldY w))) ∧
  (∀ (x : Nibble) (nn : Byte) (s : State),
    Completes (.ldByte x nn) s (s.pc + 2) { regs := [x] } (fun t => t.getV x = nn) ∧
    Completes (.addByte x nn) s (s.pc + 2) { regs := [x] } (fun t =>
      (t.getV x).toNat = ((s.getV x).toNat + nn.toNat) % 256)) ∧
  (∀ (x y : Nibble) (s : State),
    Completes (.ldReg x y) s (s.pc + 2) { regs := [x] } (fun t => t.getV x = s.getV y))

/-- 8XY1, 8XY2, 8XY3 combine V[x] and V[y] bit by bit; VF is not reset (44_alu.md section 2; decision D15). -/
def Obligations.BitwiseOperations : Prop :=
  ∀ (x y : Nibble) (s : State),
    Completes (.orReg x y) s (s.pc + 2) { regs := [x] } (fun t => ∀ k, (t.getV x).getLsbD k =
      ((s.getV x).getLsbD k || (s.getV y).getLsbD k)) ∧
    Completes (.andReg x y) s (s.pc + 2) { regs := [x] } (fun t => ∀ k, (t.getV x).getLsbD k =
      ((s.getV x).getLsbD k && (s.getV y).getLsbD k)) ∧
    Completes (.xorReg x y) s (s.pc + 2) { regs := [x] } (fun t => ∀ k, (t.getV x).getLsbD k =
      ((s.getV x).getLsbD k != (s.getV y).getLsbD k))

/-- 8XY4: V[x] is the sum modulo 256 and VF the carry, 1 iff the exact sum exceeds 255; with x = F VF holds the carry
and the sum is lost (44_alu.md sections 1 and 2; decision D14). -/
def Obligations.AddWithCarry : Prop :=
  ∀ (x y : Nibble) (s : State),
    Completes (.addReg x y) s (s.pc + 2) { regs := [x, 15] } (fun t =>
      (x ≠ 15 → (t.getV x).toNat = ((s.getV x).toNat + (s.getV y).toNat) % 256) ∧
      t.getV 15 = if (s.getV x).toNat + (s.getV y).toNat > 255 then 1 else 0)

/-- 8XY5 and 8XY7: the difference modulo 256 and VF = 0 iff a borrow occurred; with x = F VF holds the flag
(44_alu.md sections 1 and 2; decisions D14, D16). -/
def Obligations.SubtractWithNoBorrow : Prop :=
  ∀ (x y : Nibble) (s : State),
    Completes (.subReg x y) s (s.pc + 2) { regs := [x, 15] } (fun t =>
      (x ≠ 15 → (t.getV x).toNat = (256 + (s.getV x).toNat - (s.getV y).toNat) % 256) ∧
      t.getV 15 = if (s.getV x).toNat < (s.getV y).toNat then 0 else 1) ∧
    Completes (.subnReg x y) s (s.pc + 2) { regs := [x, 15] } (fun t =>
      (x ≠ 15 → (t.getV x).toNat = (256 + (s.getV y).toNat - (s.getV x).toNat) % 256) ∧
      t.getV 15 = if (s.getV y).toNat < (s.getV x).toNat then 0 else 1)

/-- 8XY6 and 8XYE shift V[x] by one with zero fill and put the bit shifted out into VF; with x = F VF holds that bit
(44_alu.md sections 1 and 2; decisions D13, D14). -/
def Obligations.ShiftMovesBitIntoFlag : Prop :=
  ∀ (x : Nibble) (s : State),
    Completes (.shr x) s (s.pc + 2) { regs := [x, 15] } (fun t =>
      (x ≠ 15 → (t.getV x).toNat = (s.getV x).toNat / 2) ∧
      (t.getV 15).toNat = (s.getV x).toNat % 2) ∧
    Completes (.shl x) s (s.pc + 2) { regs := [x, 15] } (fun t =>
      (x ≠ 15 → (t.getV x).toNat = (s.getV x).toNat * 2 % 256) ∧
      (t.getV 15).toNat = (s.getV x).toNat / 128)

/-- CXNN sets V[x] to a random byte AND NN: no bit outside NN is ever set, and NN = 0 gives 0 (44_alu.md section 2;
decision D23). Which byte is drawn is free: `Config.randomByte` has no body, and its counter is the model's own (log
entry 4). -/
def Obligations.RandomIsMasked : Prop :=
  ∀ (x : Nibble) (nn : Byte) (s : State),
    Completes (.rnd x nn) s (s.pc + 2) { regs := [x], draw := true } (fun t =>
      t.getV x = Config.randomByte s.draws &&& nn ∧ t.getV x &&& nn = t.getV x ∧ (nn = 0 → t.getV x = 0) ∧
      t.draws = s.draws + 1)

/-! ### Index register and memory (45_index_memory.md) -/

/-- R180, R182: ANNN sets I to NNN, FX29 sets I to V[x] times 5, unmasked; only I and PC change. -/
def Obligations.LoadIndex : Prop :=
  (∀ w : Word, fieldF w = 0xA → decode w = .ok (.ldI (fieldNNN w))) ∧
  (∀ w : Word, fieldF w = 0xF → fieldNN w = 0x29 → decode w = .ok (.ldF (fieldX w))) ∧
  (∀ (nnn : Addr12) (s : State),
    Completes (.ldI nnn) s (s.pc + 2) { index := true } (fun t => t.i.toNat = nnn.toNat)) ∧
  (∀ (x : Nibble) (s : State),
    Completes (.ldF x) s (s.pc + 2) { index := true } (fun t => t.i.toNat = (s.getV x).toNat * 5))

/-- FX1E adds V[x] to I modulo 2^16 and sets VF to 1 iff the new I exceeds 0xFFF, else 0 (45_index_memory.md section 1;
decisions D10, D14). -/
def Obligations.AddToIndex : Prop :=
  ∀ (x : Nibble) (s : State),
    Completes (.addI x) s (s.pc + 2) { index := true, regs := [15] } (fun t =>
      t.i.toNat = (s.i.toNat + (s.getV x).toNat) % 0x10000 ∧ t.getV 15 = if t.i.toNat > 0xFFF then 1 else 0)

/-- FX33 stores the decimal digits of V[x] at I, I+1, I+2, hundreds first, when the three addresses lie between the font
and the end of memory; no other byte and no register changes (45_index_memory.md section 1; decisions D4, D5, D21). -/
def Obligations.StoreDecimalDigits : Prop :=
  ∀ (x : Nibble) (s : State), s.mem.wf → 0x50 ≤ s.base → s.base + 3 ≤ 0x1000 →
    Completes (.ldB x) s (s.pc + 2) { storeAt := s.base, storeLen := 3 } (fun t =>
      (t.mem.read s.base).toNat = (s.getV x).toNat / 100 ∧
      (t.mem.read (s.base + 1)).toNat = (s.getV x).toNat / 10 % 10 ∧
      (t.mem.read (s.base + 2)).toNat = (s.getV x).toNat % 10)

/-- FX55 stores V0 to V[x] from I on and adds x + 1 to I, when the addresses lie between the font and the end of memory;
no other byte and no register changes (45_index_memory.md section 1; decisions D4, D5, D10). -/
def Obligations.StoreRegisterRun : Prop :=
  ∀ (x : Nibble) (s : State), s.mem.wf → 0x50 ≤ s.base → s.base + x.toNat + 1 ≤ 0x1000 →
    Completes (.storeRegs x) s (s.pc + 2) { index := true, storeAt := s.base, storeLen := x.toNat + 1 } (fun t =>
      (∀ r : Nibble, r ≤ x → t.mem.read (s.base + r.toNat) = s.getV r) ∧
      t.i.toNat = (s.i.toNat + x.toNat + 1) % 0x10000)

/-- FX65 loads V0 to V[x] from I on and adds x + 1 to I, when the addresses lie inside memory; no byte of memory and no
other register changes (45_index_memory.md section 1; decisions D4, D10). -/
def Obligations.LoadRegisterRun : Prop :=
  ∀ (x : Nibble) (s : State), s.base + x.toNat + 1 ≤ 0x1000 →
    Completes (.loadRegs x) s (s.pc + 2)
      { index := true, regs := (List.range (x.toNat + 1)).map (BitVec.ofNat 4) } (fun t =>
      (∀ r : Nibble, r ≤ x → t.getV r = s.mem.read (s.base + r.toNat)) ∧
      t.i.toNat = (s.i.toNat + x.toNat + 1) % 0x10000)

/-- FX33 and FX55 raise the fault of the lowest address they may not write: MemoryBoundsError at or above 0x1000,
FontWriteError at or below 0x04F; nothing else changes (20_memory.md section 4; decisions D4, D5, D35, D36). -/
def Obligations.StoreFaultsAtLowestAddress : Prop :=
  ∀ (i : Instr) (n : Nat) (s : State), (∃ x, (i = .ldB x ∧ n = 3) ∨ (i = .storeRegs x ∧ n = x.toNat + 1)) →
    ∀ k, k < n → (∀ j, j < k → 0x50 ≤ s.base + j ∧ s.base + j < 0x1000) →
      (0x1000 ≤ s.base + k → Faults i s (.memoryBounds (s.base + k) .write s.pc)) ∧
      (s.base + k < 0x50 → Faults i s (.fontWrite (s.base + k) s.pc))

/-- DXYN and FX65 raise MemoryBoundsError with the lowest address they cannot read; nothing else changes
(20_memory.md section 4; decisions D4, D34, D36). -/
def Obligations.ReadFaultsAtLowestAddress : Prop :=
  ∀ (i : Instr) (n : Nat) (s : State),
    ((∃ x, i = .loadRegs x ∧ n = x.toNat + 1) ∨ (∃ x y h, i = .drw x y h ∧ n = h.toNat)) →
    ∀ k, k < n → (∀ j, j < k → s.base + j < 0x1000) → 0x1000 ≤ s.base + k →
      Faults i s (.memoryBounds (s.base + k) .read s.pc)

/-! ### Display (41_display.md) -/

/-- 00E0 clears every pixel and sets frame_changed; nothing else changes (41_display.md section 2; decision D20). -/
def Obligations.ClearEmptiesFrameBuffer : Prop :=
  ∀ s : State, Completes .cls s (s.pc + 2) { display := true } (fun t =>
    (∀ px py, pixel t.fb px py = false) ∧ t.frameChanged = true)

/-- DXYN inverts exactly the pixels the sprite's set bits fall on, wrapped at both edges, sets VF to 1 iff one of them was
set and else to 0, and sets frame_changed; with N = 0 it reads nothing and cannot fault (41_display.md section 2;
decisions D14, D17, D18, D19, D20). -/
def Obligations.DrawInvertsCoveredPixels : Prop :=
  ∀ (x y n : Nibble) (s : State), (n = 0 ∨ s.base + n.toNat ≤ 0x1000) →
    Completes (.drw x y n) s (s.pc + 2) { regs := [15], display := true } (fun t =>
      t.frameChanged = true ∧
      (∀ px py, px < 64 → py < 32 →
        (SpriteCovers s x y n px py → pixel t.fb px py = !pixel s.fb px py) ∧
        (¬ SpriteCovers s x y n px py → pixel t.fb px py = pixel s.fb px py)) ∧
      ((∃ px py, SpriteCovers s x y n px py ∧ pixel s.fb px py = true) → t.getV 15 = 1) ∧
      ((¬ ∃ px py, SpriteCovers s x y n px py ∧ pixel s.fb px py = true) → t.getV 15 = 0))

/-- The laws of DXYN for coordinates not held in VF: on a clear frame buffer VF = 0; the same sprite drawn again at the
same place restores every pixel, and then VF = 1 exactly when a covered pixel was clear before the first draw
(41_display.md section 2, laws). -/
def Obligations.DrawTwiceRestores : Prop :=
  ∀ (x y n : Nibble) (s t t' u : State), x ≠ 15 → y ≠ 15 →
    exec (.drw x y n) s = .next t → t.outcome = .progressed → SameDraw t t' x y →
    exec (.drw x y n) t' = .next u →
    u.fb = s.fb ∧
    (u.getV 15 = 1 ↔ ∃ px py, SpriteCovers s x y n px py ∧ pixel t.fb px py = true) ∧
    (u.getV 15 = 1 ↔ ∃ px py, SpriteCovers s x y n px py ∧ pixel s.fb px py = false) ∧
    ((∀ px py, pixel s.fb px py = false) → t.getV 15 = 0)

/-! ### Timers and keys (46_timers_keys.md) -/

/-- R200, R203: FX07 reads DT as it is before the tick of its step; FX15 writes V[x] to DT, which the tick of the same
step then decrements. -/
def Obligations.DelayTimerReadAndWrite : Prop :=
  (∀ w : Word, fieldF w = 0xF → fieldNN w = 0x07 → decode w = .ok (.ldVxDt (fieldX w))) ∧
  (∀ w : Word, fieldF w = 0xF → fieldNN w = 0x15 → decode w = .ok (.ldDtVx (fieldX w))) ∧
  ∀ (x : Nibble) (s : State),
    Completes (.ldVxDt x) s (s.pc + 2) { regs := [x] } (fun t =>
      t.getV x = s.dt ∧ t.finish.getV x = s.dt ∧ t.finish.dt.toNat = s.dt.toNat - 1) ∧
    Completes (.ldDtVx x) s (s.pc + 2) { delay := true } (fun t =>
      t.dt = s.getV x ∧ t.finish.dt.toNat = (s.getV x).toNat - 1)

/-- FX18 writes V[x] to ST; the tick of the same step decrements it and puts out the tone exactly when V[x] = 1
(46_timers_keys.md section 1; decision D26). -/
def Obligations.SoundTimerWrite : Prop :=
  ∀ (x : Nibble) (s : State),
    Completes (.ldStVx x) s (s.pc + 2) { sound := true } (fun t =>
      t.st = s.getV x ∧ t.finish.st.toNat = (s.getV x).toNat - 1 ∧ (t.finish.tone = true ↔ (s.getV x).toNat = 1))

/-- FX0A with a key pressed stores the lowest-indexed pressed key and completes; with none it is Blocked and writes
nothing (46_timers_keys.md section 1; decision D40). -/
def Obligations.WaitForKey : Prop :=
  ∀ (x : Nibble) (s : State),
    (∀ (k : Nat) (h : k < 16), s.keys[k]'h = true →
      (∀ (j : Nat) (hj : j < k), s.keys[j]'(Nat.lt_trans hj h) = false) →
      Completes (.ldVxK x) s (s.pc + 2) { regs := [x] } (fun t => (t.getV x).toNat = k)) ∧
    ((∀ (k : Nat) (h : k < 16), s.keys[k]'h = false) → exec (.ldVxK x) s = .next { s with outcome := .blocked })

/-! ### The host (40_cycle.md section 4) -/

/-- A key event sets or clears the flag of its key and changes nothing else (40_cycle.md section 4). -/
def Obligations.KeyEventsSetOneFlag : Prop :=
  ∀ (s : State) (k : Nibble),
    ((s.keyEvent (.press k)).keys[k.toNat]'(k.isLt) = true ∧ (s.keyEvent (.release k)).keys[k.toNat]'(k.isLt) = false) ∧
    ∀ e, (e = .press k ∨ e = .release k) → { s.keyEvent e with keys := s.keys } = s ∧
      ∀ (j : Nat) (hj : j < 16), j ≠ k.toNat → (s.keyEvent e).keys[j]'hj = s.keys[j]'hj

/-- Waiting at an FX0A with no key pressed, the host loop may go round any number of times without a key event: the
block stays where it is, no tone is notified, at most the picture of before the wait is drawn, and no state but
frame_changed, which the host clears, differs (46_timers_keys.md section 1; 40_cycle.md section 4; decision D20; log
entry 5). -/
def Obligations.WaitingBlockStaysPut : Prop :=
  ∀ (n : Nat) (x : Nibble) (s : State), s.status = .running → s.runs (.ldVxK x) →
    (∀ (k : Nat) (h : k < 16), s.keys[k]'h = false) →
    hostLoop (List.replicate (n + 1) ⟨[], true⟩) s =
      ⟨if s.frameChanged then [.draw s.fb] else [], .going { s with outcome := .blocked, tone := false, frameChanged := false }⟩

/-- One round of the host loop: an `update()` that returns false stops it after its key events, with no step; else the
block is stepped with those events, the tone is notified if the step put it out, a fault stops it with its report and
nothing drawn, and else the frame buffer is drawn if frame_changed is set, which is then cleared (40_cycle.md section 4;
decisions D20, D23, D27; the record of signals by log entry 5). -/
def Obligations.HostRound : Prop :=
  ∀ (u : HostUpdate) (us : List HostUpdate) (s : State),
    (u.live = false → hostLoop (u :: us) s = ⟨[], .stopped (u.events.foldl State.keyEvent s)⟩) ∧
    (u.live = true → s.status = .running → ∃ t, step (u.events.foldl State.keyEvent s) = .next t ∧
      (∀ f, t.status = .faulted f → hostLoop (u :: us) s = ⟨[], .faulted f t⟩) ∧
      (t.status = .running →
        (hostLoop (u :: us) s).ended = (hostLoop us { t with frameChanged := false }).ended ∧
        (hostLoop (u :: us) s).signals = (if t.tone = true then [.tone] else []) ++
          (if t.frameChanged = true then [.draw t.fb] else []) ++ (hostLoop us { t with frameChanged := false }).signals))

/-- A run of the host from any image and with any updates ends with LoadError exactly for an image that construct
rejects, else in a reachable state: Faulted with the reported fault, or Running when the host stopped or has not ended;
no run ends in an instruction without a meaning (40_cycle.md sections 4 and 5; decision D27; log entries 1 and 5). -/
def Obligations.HostRunsStayReachable : Prop :=
  ∀ (image : Option Bytes) (us : List HostUpdate),
    (∀ e, construct image = .error e → (host image us).ended = .loadError e) ∧
    match (host image us).ended with
    | .loadError e => construct image = .error e
    | .faulted f s => Reachable s ∧ s.status = .faulted f
    | .stopped s => Reachable s ∧ s.status = .running
    | .going s => Reachable s ∧ s.status = .running
    | .refused _ => False
end

