-- ==== Sys2Proof/Laws/Draw.lean ====
section
/-! SUPPORT. What drawing a sprite does, pixel by pixel (41_display.md R122, R123). -/

namespace Sys2Proof.Machine

/-- Row r, column c of the sprite is set and falls on pixel (px, py). -/
abbrev spriteBitOn (m : Memory) (base x0 y0 r c px py : Nat) : Prop :=
  (m.read (base + r)).getLsbD (7 - c) = true ∧ px = (x0 + c) % 64 ∧ py = (y0 + r) % 32

/-- Flipping a pixel of the grid inverts it and leaves every other pixel. -/
theorem pixel_flipPixel (fb : FrameBuffer) (p q px py : Nat) (hp : p < 64) (hq : q < 32) :
    pixel (flipPixel fb p q) px py = (pixel fb px py != decide (px = p ∧ py = q)) := by
  unfold pixel flipPixel
  by_cases hy : py = q
  · subst hy
    rw [Vector.getElem?_setIfInBounds_self]
    simp only [hq, if_true, Option.getD_some, BitVec.getLsbD_xor, BitVec.getLsbD_twoPow, and_true]
    by_cases hx : px = p
    · subst hx; simp [hp]
    · simp [hx, Ne.symm hx]
  · rw [Vector.getElem?_setIfInBounds_ne (by omega)]
    simp [hy]

/-- The canvas after all rows below n and the columns below k of row n. -/
theorem drawn_spec (m : Memory) (base x0 y0 n k : Nat) (fb : FrameBuffer) (hn : n < 16) (hk : k ≤ 8)
    (cv : Canvas)
    (hcv : cv = (List.range k).foldl (drawPixel x0 ((y0 + n) % 32) (m.read (base + n)))
      (drawSprite m base x0 y0 n fb))
    (hrow : ∀ (px py : Nat),
      ((pixel (drawSprite m base x0 y0 n fb).1 px py = true) ↔
        ((pixel fb px py = true) ↔ ¬ ∃ r c, r < n ∧ c < 8 ∧ spriteBitOn m base x0 y0 r c px py)))
    (hhit : (drawSprite m base x0 y0 n fb).2 = true ↔
      ∃ r c px py, r < n ∧ c < 8 ∧ spriteBitOn m base x0 y0 r c px py ∧ pixel fb px py = true) :
    (∀ (px py : Nat), ((pixel cv.1 px py = true) ↔
      ((pixel fb px py = true) ↔
        ¬ ∃ r c, (r < n ∨ r = n ∧ c < k) ∧ c < 8 ∧ spriteBitOn m base x0 y0 r c px py))) ∧
    (cv.2 = true ↔
      ∃ r c px py, (r < n ∨ r = n ∧ c < k) ∧ c < 8 ∧ spriteBitOn m base x0 y0 r c px py ∧ pixel fb px py = true) := by
  induction k generalizing cv with
  | zero =>
    subst hcv
    simp only [Nat.not_lt_zero, and_false, or_false]
    exact ⟨hrow, hhit⟩
  | succ k ih =>
    obtain ⟨ih1, ih2⟩ := ih (by omega) _ rfl
    rw [List.range_succ, List.foldl_append, List.foldl_cons, List.foldl_nil] at hcv
    generalize hcv' : (List.range k).foldl (drawPixel x0 ((y0 + n) % 32) (m.read (base + n)))
      (drawSprite m base x0 y0 n fb) = cv' at hcv ih1 ih2
    -- nothing drawn so far falls on the pixel of row n, column k
    have hfresh : ∀ r c, (r < n ∨ r = n ∧ c < k) → c < 8 →
        ¬ spriteBitOn m base x0 y0 r c ((x0 + k) % 64) ((y0 + n) % 32) := by
      rintro r c (h | ⟨rfl, h⟩) hc ⟨-, hx, hy⟩ <;> omega
    by_cases hb : (m.read (base + n)).getLsbD (7 - k) = true
    · have hstep : cv = (flipPixel cv'.1 ((x0 + k) % 64) ((y0 + n) % 32),
          cv'.2 || pixel cv'.1 ((x0 + k) % 64) ((y0 + n) % 32)) := by
        rw [hcv]; simp [drawPixel, hb, Config.fbWidth]
      have hold : pixel cv'.1 ((x0 + k) % 64) ((y0 + n) % 32) = pixel fb ((x0 + k) % 64) ((y0 + n) % 32) := by
        have h1 := ih1 ((x0 + k) % 64) ((y0 + n) % 32)
        have h2 : ¬ ∃ r c, (r < n ∨ r = n ∧ c < k) ∧ c < 8 ∧
            spriteBitOn m base x0 y0 r c ((x0 + k) % 64) ((y0 + n) % 32) := by
          rintro ⟨r, c, h, hc, hs⟩; exact hfresh r c h hc hs
        have h3 := h1.trans (iff_true_right h2)
        exact Bool.eq_iff_iff.mpr h3
      constructor
      · intro px py
        rw [hstep]
        show pixel (flipPixel cv'.1 _ _) px py = true ↔ _
        rw [pixel_flipPixel _ _ _ _ _ (Nat.mod_lt _ (by omega)) (Nat.mod_lt _ (by omega))]
        by_cases hp : px = (x0 + k) % 64 ∧ py = (y0 + n) % 32
        · obtain ⟨rfl, rfl⟩ := hp
          have : ∃ r c, (r < n ∨ r = n ∧ c < k + 1) ∧ c < 8 ∧
              spriteBitOn m base x0 y0 r c ((x0 + k) % 64) ((y0 + n) % 32) :=
            ⟨n, k, .inr ⟨rfl, by omega⟩, by omega, hb, rfl, rfl⟩
          rw [iff_false_right (not_not_intro this), hold]
          simp
        · have heq : (∃ r c, (r < n ∨ r = n ∧ c < k + 1) ∧ c < 8 ∧ spriteBitOn m base x0 y0 r c px py) ↔
              (∃ r c, (r < n ∨ r = n ∧ c < k) ∧ c < 8 ∧ spriteBitOn m base x0 y0 r c px py) := by
            constructor
            · rintro ⟨r, c, h, hc, hs⟩
              refine ⟨r, c, ?_, hc, hs⟩
              rcases h with h | ⟨rfl, h⟩
              · exact .inl h
              · refine .inr ⟨rfl, Nat.lt_of_le_of_ne (by omega) ?_⟩
                rintro rfl
                exact hp ⟨hs.2.1, hs.2.2⟩
            · rintro ⟨r, c, h, hc, hs⟩
              exact ⟨r, c, h.imp_right fun h => ⟨h.1, by omega⟩, hc, hs⟩
          rw [heq, ← ih1 px py]
          simp [hp]
      · rw [hstep]
        show (cv'.2 || pixel cv'.1 _ _) = true ↔ _
        rw [hold, Bool.or_eq_true, ih2]
        constructor
        · rintro (⟨r, c, px, py, h, hc, hs, hf⟩ | hf)
          · exact ⟨r, c, px, py, h.imp_right fun h => ⟨h.1, by omega⟩, hc, hs, hf⟩
          · exact ⟨n, k, _, _, .inr ⟨rfl, by omega⟩, by omega, ⟨hb, rfl, rfl⟩, hf⟩
        · rintro ⟨r, c, px, py, h, hc, hs, hf⟩
          by_cases hck : r = n ∧ c = k
          · obtain ⟨rfl, rfl⟩ := hck
            obtain ⟨-, rfl, rfl⟩ := hs
            exact .inr hf
          · refine .inl ⟨r, c, px, py, ?_, hc, hs, hf⟩
            rcases h with h | ⟨h1, h2⟩
            · exact .inl h
            · exact .inr ⟨h1, by omega⟩
    · have hstep : cv = cv' := by rw [hcv]; simp [drawPixel, hb]
      have hsame : ∀ px py r c, ((r < n ∨ r = n ∧ c < k + 1) ∧ c < 8 ∧ spriteBitOn m base x0 y0 r c px py) ↔
          ((r < n ∨ r = n ∧ c < k) ∧ c < 8 ∧ spriteBitOn m base x0 y0 r c px py) := by
        intro px py r c
        constructor
        · rintro ⟨h, hc, hs⟩
          refine ⟨?_, hc, hs⟩
          rcases h with h | ⟨rfl, h⟩
          · exact .inl h
          · refine .inr ⟨rfl, Nat.lt_of_le_of_ne (by omega) ?_⟩
            rintro rfl
            exact hb hs.1
        · rintro ⟨h, hc, hs⟩
          exact ⟨h.imp_right fun h => ⟨h.1, by omega⟩, hc, hs⟩
      rw [hstep]
      refine ⟨fun px py => ?_, ?_⟩
      · simp only [hsame]; exact ih1 px py
      · rw [ih2]
        constructor
        · rintro ⟨r, c, px, py, h, hc, hs, hf⟩
          exact ⟨r, c, px, py, h.imp_right fun h => ⟨h.1, by omega⟩, hc, hs, hf⟩
        · rintro ⟨r, c, px, py, h, hc, hs, hf⟩
          obtain ⟨h', hc', hs'⟩ := (hsame px py r c).mp ⟨h, hc, hs⟩
          exact ⟨r, c, px, py, h', hc', hs', hf⟩

/-- A sprite of at most 16 rows inverts exactly the pixels its set bits fall on, and reports whether one was set. -/
theorem drawSprite_spec (m : Memory) (base x0 y0 n : Nat) (fb : FrameBuffer) (hn : n ≤ 16) :
    (∀ (px py : Nat), ((pixel (drawSprite m base x0 y0 n fb).1 px py = true) ↔
      ((pixel fb px py = true) ↔ ¬ ∃ r c, r < n ∧ c < 8 ∧ spriteBitOn m base x0 y0 r c px py))) ∧
    ((drawSprite m base x0 y0 n fb).2 = true ↔
      ∃ r c px py, r < n ∧ c < 8 ∧ spriteBitOn m base x0 y0 r c px py ∧ pixel fb px py = true) := by
  induction n with
  | zero => simp [drawSprite]
  | succ n ih =>
    obtain ⟨ih1, ih2⟩ := ih (by omega)
    have hs : drawSprite m base x0 y0 (n + 1) fb =
        (List.range 8).foldl (drawPixel x0 ((y0 + n) % 32) (m.read (base + n))) (drawSprite m base x0 y0 n fb) := by
      simp [drawSprite, List.range_succ (n := n), drawRow, Config.fbHeight]
    obtain ⟨h1, h2⟩ := drawn_spec m base x0 y0 n 8 fb (by omega) (by omega) _ hs ih1 ih2
    have hr : ∀ r c, ((r < n ∨ r = n ∧ c < 8) ∧ c < 8) ↔ (r < n + 1 ∧ c < 8) := by intro r c; omega
    constructor
    · intro px py
      rw [h1 px py]
      have : (∃ r c, (r < n ∨ r = n ∧ c < 8) ∧ c < 8 ∧ spriteBitOn m base x0 y0 r c px py) ↔
          (∃ r c, r < n + 1 ∧ c < 8 ∧ spriteBitOn m base x0 y0 r c px py) := by
        simp only [← and_assoc, hr]
      rw [this]
    · rw [h2]
      simp only [← and_assoc, hr]

/-- A frame buffer is determined by its pixels. -/
theorem frameBuffer_ext {f g : FrameBuffer} (h : ∀ px py, px < 64 → py < 32 → pixel f px py = pixel g px py) : f = g := by
  apply Vector.ext
  intro y hy
  apply BitVec.eq_of_getLsbD_eq
  intro x hx
  have := h x y hx hy
  simpa [pixel, Vector.getElem?_eq_getElem hy] using this

@[simp] theorem pixel_blank (px py : Nat) : pixel FrameBuffer.blank px py = false := by
  unfold pixel FrameBuffer.blank
  by_cases h : py < 32
  · simp [h]
  · simp [h]

end Sys2Proof.Machine
end

