-- ==== Sys2Proof/Laws/Encoding.lean ====
section
/-! SUPPORT. The fields of an encoded word, and the row it belongs to (30_encoding.md R81, R82, R86). -/

namespace Sys2Proof

/-! ### Fields of the three word shapes -/

theorem fieldF_wordA (f : Nibble) (nnn : Addr12) : fieldF (wordA f nnn) = f := by
  apply BitVec.eq_of_getElem_eq
  intro k hk
  interval_cases k <;> simp [wordA, fieldF]

theorem fieldNNN_wordA (f : Nibble) (nnn : Addr12) : fieldNNN (wordA f nnn) = nnn := by
  apply BitVec.eq_of_getElem_eq
  intro k hk
  interval_cases k <;> simp [wordA, fieldNNN]

theorem fieldF_wordXB (f x : Nibble) (nn : Byte) : fieldF (wordXB f x nn) = f := by
  apply BitVec.eq_of_getElem_eq
  intro k hk
  interval_cases k <;> simp [wordXB, fieldF]

theorem fieldX_wordXB (f x : Nibble) (nn : Byte) : fieldX (wordXB f x nn) = x := by
  apply BitVec.eq_of_getElem_eq
  intro k hk
  interval_cases k <;> simp [wordXB, fieldX]

theorem fieldNN_wordXB (f x : Nibble) (nn : Byte) : fieldNN (wordXB f x nn) = nn := by
  apply BitVec.eq_of_getElem_eq
  intro k hk
  interval_cases k <;> simp [wordXB, fieldNN]

theorem fieldF_wordXYN (f x y n : Nibble) : fieldF (wordXYN f x y n) = f := by
  apply BitVec.eq_of_getElem_eq
  intro k hk
  interval_cases k <;> simp [wordXYN, fieldF]

theorem fieldX_wordXYN (f x y n : Nibble) : fieldX (wordXYN f x y n) = x := by
  apply BitVec.eq_of_getElem_eq
  intro k hk
  interval_cases k <;> simp [wordXYN, fieldX]

theorem fieldY_wordXYN (f x y n : Nibble) : fieldY (wordXYN f x y n) = y := by
  apply BitVec.eq_of_getElem_eq
  intro k hk
  interval_cases k <;> simp [wordXYN, fieldY]

theorem fieldN_wordXYN (f x y n : Nibble) : fieldN (wordXYN f x y n) = n := by
  apply BitVec.eq_of_getElem_eq
  intro k hk
  interval_cases k <;> simp [wordXYN, fieldN]

/-! ### Masks of the three word shapes -/

theorem wordA_mask (f : Nibble) (nnn : Addr12) : wordA f nnn &&& 0xF000 = wordA f 0 := by
  apply BitVec.eq_of_getElem_eq
  intro k hk
  interval_cases k <;> simp [wordA]

theorem wordXB_mask (f x : Nibble) (nn : Byte) : wordXB f x nn &&& 0xF000 = wordXB f 0 0 := by
  apply BitVec.eq_of_getElem_eq
  intro k hk
  interval_cases k <;> simp [wordXB]

theorem wordXB_mask_byte (f x : Nibble) (nn : Byte) : wordXB f x nn &&& 0xF0FF = wordXB f 0 nn := by
  apply BitVec.eq_of_getElem_eq
  intro k hk
  interval_cases k <;> simp [wordXB]

theorem wordXYN_mask (f x y n : Nibble) : wordXYN f x y n &&& 0xF000 = wordXYN f 0 0 0 := by
  apply BitVec.eq_of_getElem_eq
  intro k hk
  interval_cases k <;> simp [wordXYN]

theorem wordXYN_mask_nibble (f x y n : Nibble) : wordXYN f x y n &&& 0xF00F = wordXYN f 0 0 n := by
  apply BitVec.eq_of_getElem_eq
  intro k hk
  interval_cases k <;> simp [wordXYN]

/-! ### A word from its fields, and its two bytes -/

theorem wordA_fields (w : Word) : wordA (fieldF w) (fieldNNN w) = w := by
  apply BitVec.eq_of_getElem_eq
  intro k hk
  interval_cases k <;> simp [wordA, fieldF, fieldNNN]

theorem wordXB_fields (w : Word) : wordXB (fieldF w) (fieldX w) (fieldNN w) = w := by
  apply BitVec.eq_of_getElem_eq
  intro k hk
  interval_cases k <;> simp [wordXB, fieldF, fieldX, fieldNN]

theorem wordXYN_fields (w : Word) : wordXYN (fieldF w) (fieldX w) (fieldY w) (fieldN w) = w := by
  apply BitVec.eq_of_getElem_eq
  intro k hk
  interval_cases k <;> simp [wordXYN, fieldF, fieldX, fieldY, fieldN]

theorem wordOfBytes_bytes (w : Word) : wordOfBytes (w.extractLsb' 8 8) (w.extractLsb' 0 8) = w := by
  apply BitVec.eq_of_getElem_eq
  intro k hk
  interval_cases k <;> simp [wordOfBytes]

theorem wordOfBytes_high (hi lo : Byte) : (wordOfBytes hi lo).extractLsb' 8 8 = hi := by
  apply BitVec.eq_of_getElem_eq
  intro k hk
  interval_cases k <;> simp [wordOfBytes]

theorem wordOfBytes_low (hi lo : Byte) : (wordOfBytes hi lo).extractLsb' 0 8 = lo := by
  apply BitVec.eq_of_getElem_eq
  intro k hk
  interval_cases k <;> simp [wordOfBytes]

/-! ### The masks of R86 keep the family, and the low nibble or the low byte -/

theorem mask_family (w : Word) : w &&& 0xF000 = wordA (fieldF w) 0 := by
  rw [← wordA_mask (fieldF w) (fieldNNN w), wordA_fields]

theorem mask_nibble (w : Word) : w &&& 0xF00F = wordXYN (fieldF w) 0 0 (fieldN w) := by
  rw [← wordXYN_mask_nibble (fieldF w) (fieldX w) (fieldY w) (fieldN w), wordXYN_fields]

theorem mask_byte (w : Word) : w &&& 0xF0FF = wordXB (fieldF w) 0 (fieldNN w) := by
  rw [← wordXB_mask_byte (fieldF w) (fieldX w) (fieldNN w), wordXB_fields]

end Sys2Proof
end

