-- ==== Sys2Proof/Laws/Host.lean ====
section
/-! SUPPORT. What each operation of the host does, and one round of its loop. -/

namespace Sys2Proof.Machine

variable (s : State)

/-! ### Reports -/

@[simp] theorem LoadError.code_eq (e : LoadError) : e.code = 1 := by cases e <;> rfl

/-! ### Polling and rendering -/

@[simp] theorem State.poll_nil : s.poll [] = s := rfl
@[simp] theorem State.poll_cons (e : KeyEvent) (es : List KeyEvent) : s.poll (e :: es) = (s.keyEvent e).poll es := rfl

/-- A key event writes the key state only. -/
theorem State.keyEvent_spec (e : KeyEvent) : ∃ keys, s.keyEvent e = { s with keys := keys } := by
  cases e <;> exact ⟨_, rfl⟩

/-- A poll writes the key state only. -/
theorem State.poll_spec (es : List KeyEvent) : ∃ keys, s.poll es = { s with keys := keys } := by
  induction es generalizing s with
  | nil => exact ⟨s.keys, rfl⟩
  | cons e es ih =>
    obtain ⟨_, he⟩ := s.keyEvent_spec e
    obtain ⟨keys, h⟩ := ih (s.keyEvent e)
    exact ⟨keys, by rw [State.poll_cons, h, he]⟩

@[simp] theorem State.poll_status (es : List KeyEvent) : (s.poll es).status = s.status := by
  obtain ⟨_, h⟩ := s.poll_spec es
  rw [h]

/-- Rendering clears frame_changed and writes nothing else. -/
theorem State.render_eq : s.render = { s with frameChanged := false } := by
  unfold State.render
  split
  · rfl
  · next h => simp only [Bool.not_eq_true] at h; rw [← h]

/-- A poll keeps a state reachable. -/
theorem Reachable.poll {s : State} (h : Reachable s) (es : List KeyEvent) : Reachable (s.poll es) := by
  induction es generalizing s with
  | nil => exact h
  | cons e es ih => exact ih (.key s e h)

/-! ### Runs -/

@[simp] theorem HostRun.after_signals (r : HostRun) (l : List HostSignal) : (r.after l).signals = l ++ r.signals := rfl
@[simp] theorem HostRun.after_ended (r : HostRun) (l : List HostSignal) : (r.after l).ended = r.ended := rfl

@[simp] theorem hostLoop_nil : hostLoop [] s = ⟨[], .going s⟩ := rfl

/-- An `update()` that returns false stops the loop. -/
theorem hostLoop_stopped {u : HostUpdate} (us : List HostUpdate) (h : u.live = false) :
    hostLoop (u :: us) s = ⟨[], .stopped (s.poll u.events)⟩ := by
  simp [hostLoop, h]

/-- A round whose step raised a fault. -/
theorem hostLoop_faulted {s t : State} {u : HostUpdate} {f : Fault} (us : List HostUpdate) (h : u.live = true)
    (hs : step (s.poll u.events) = .next t) (ht : t.outcome = .fault f) :
    hostLoop (u :: us) s = ⟨t.toneSignal, .faulted f t⟩ := by
  simp [hostLoop, h, hs, ht]

/-- A round whose step raised none. -/
theorem hostLoop_stepped {s t : State} {u : HostUpdate} (us : List HostUpdate) (h : u.live = true)
    (hs : step (s.poll u.events) = .next t) (ht : ∀ f, t.outcome ≠ .fault f) :
    hostLoop (u :: us) s = (hostLoop us t.render).after (t.toneSignal ++ t.drawSignal) := by
  cases ho : t.outcome with
  | fault f => exact absurd ho (ht f)
  | notStepped => simp [hostLoop, h, hs, ho]
  | progressed => simp [hostLoop, h, hs, ho]
  | blocked => simp [hostLoop, h, hs, ho]

end Sys2Proof.Machine
end

