-- ==== Sys2Proof/Laws/Memory.lean ====
section
/-! SUPPORT. What reading, writing and storing do, that they keep the canonical form, and what the address checks find. -/

namespace Sys2Proof.Machine

@[simp] theorem Memory.read_nil (a : Nat) : Memory.read [] a = resetByte a := rfl

theorem Memory.read_cons (c : Nat) (d : Byte) (rest : Memory) (a : Nat) :
    Memory.read ((c, d) :: rest) a = if c = a then d else Memory.read rest a := rfl

/-- An address no entry lists reads as its reset content. -/
theorem Memory.read_unlisted {m : Memory} {a : Nat} (h : ∀ c ∈ m, c.1 ≠ a) : Memory.read m a = resetByte a := by
  induction m with
  | nil => rfl
  | cons c rest ih =>
    rw [Memory.read_cons, if_neg (h c (by simp))]
    exact ih fun d hd => h d (by simp [hd])

/-- A write leaves every other address as it was. -/
theorem Memory.read_write_ne {m : Memory} {a a' : Nat} (b : Byte) (h : a' ≠ a) :
    Memory.read (Memory.write m a b) a' = Memory.read m a' := by
  have h' : a ≠ a' := Ne.symm h
  induction m with
  | nil => simp only [Memory.write]; split <;> simp [Memory.read_cons, h']
  | cons c rest ih =>
    obtain ⟨c, d⟩ := c
    simp only [Memory.write]
    split
    · split
      · rfl
      · simp [Memory.read_cons, h']
    · split
      · next e => subst e; split <;> simp [Memory.read_cons, h']
      · simp [Memory.read_cons, ih]

/-- A canonical list's tail lists no address of its head or below. -/
theorem Memory.wf_tail {c : Nat} {d : Byte} {rest : Memory} (h : Memory.wf ((c, d) :: rest)) :
    Memory.wf rest ∧ (∀ e ∈ rest, c < e.1) ∧ c < Config.memSize ∧ d ≠ resetByte c := by
  obtain ⟨hp, hv⟩ := h
  rw [List.pairwise_cons] at hp
  have hc := hv (c, d) (by simp)
  exact ⟨⟨hp.2, fun e he => hv e (by simp [he])⟩, fun e he => hp.1 e he, hc.1, hc.2⟩

/-- A read of the address just written gives the byte written. -/
theorem Memory.read_write_same {m : Memory} (a : Nat) (b : Byte) (h : m.wf) :
    Memory.read (Memory.write m a b) a = b := by
  induction m with
  | nil => simp only [Memory.write]; split <;> simp_all [Memory.read_cons]
  | cons c rest ih =>
    obtain ⟨c, d⟩ := c
    obtain ⟨hr, hlt, -, -⟩ := Memory.wf_tail h
    simp only [Memory.write]
    split
    · next ha =>
      split
      · next hb =>
        rw [hb]
        refine Memory.read_unlisted fun e he => ?_
        rcases List.mem_cons.mp he with rfl | he
        · exact Nat.ne_of_gt ha
        · have := hlt e he; omega
      · simp [Memory.read_cons]
    · split
      · next hac =>
        split
        · next hb =>
          rw [hb]
          exact Memory.read_unlisted fun e he => by have := hlt e he; omega
        · simp [Memory.read_cons]
      · next hac => simp [Memory.read_cons, Ne.symm hac, ih hr]

/-- Every entry after a write was there before, or is the one written. -/
theorem Memory.mem_write {m : Memory} {a : Nat} {b : Byte} {e : Host.Cell} (h : e ∈ Memory.write m a b) :
    e ∈ m ∨ (e = (a, b) ∧ b ≠ resetByte a) := by
  induction m with
  | nil =>
    simp only [Memory.write] at h
    split at h
    · simp at h
    · next hb => exact .inr ⟨by simpa using h, hb⟩
  | cons c rest ih =>
    obtain ⟨c, d⟩ := c
    simp only [Memory.write] at h
    split at h
    · split at h
      · exact .inl h
      · next hb =>
        rcases List.mem_cons.mp h with rfl | h
        · exact .inr ⟨rfl, hb⟩
        · exact .inl h
    · split at h
      · split at h
        · exact .inl (List.mem_cons_of_mem _ h)
        · next hb =>
          rcases List.mem_cons.mp h with rfl | h
          · exact .inr ⟨rfl, hb⟩
          · exact .inl (List.mem_cons_of_mem _ h)
      · rcases List.mem_cons.mp h with rfl | h
        · exact .inl (by simp)
        · rcases ih h with h | h
          · exact .inl (List.mem_cons_of_mem _ h)
          · exact .inr h

/-- A write inside memory keeps the canonical form. -/
theorem Memory.write_wf {m : Memory} {a : Nat} (b : Byte) (h : m.wf) (ha : a < Config.memSize) :
    (Memory.write m a b).wf := by
  refine ⟨?_, fun e he => ?_⟩
  · induction m with
    | nil => simp only [Memory.write]; split <;> simp
    | cons c rest ih =>
      obtain ⟨c, d⟩ := c
      obtain ⟨hr, hlt, -, -⟩ := Memory.wf_tail h
      simp only [Memory.write]
      split
      · next hac =>
        split
        · exact h.1
        · refine List.pairwise_cons.mpr ⟨fun e he => ?_, h.1⟩
          rcases List.mem_cons.mp he with rfl | he
          · exact hac
          · exact Nat.lt_trans hac (hlt e he)
      · split
        · next hac =>
          split
          · exact hr.1
          · exact List.pairwise_cons.mpr ⟨fun e he => by rw [hac]; exact hlt e he, hr.1⟩
        · next hac hne =>
          refine List.pairwise_cons.mpr ⟨fun e he => ?_, ih hr⟩
          rcases Memory.mem_write he with he | ⟨rfl, -⟩
          · exact hlt e he
          · show c < a; omega
  · rcases Memory.mem_write he with he | ⟨rfl, hb⟩
    · exact h.2 e he
    · exact ⟨ha, hb⟩

/-- Stored bytes leave every address outside them as it was. -/
theorem Memory.read_storeBytes_outside {m : Memory} {a a' : Nat} {bs : Bytes}
    (h : a' < a ∨ a + bs.length ≤ a') : Memory.read (Memory.storeBytes m a bs) a' = Memory.read m a' := by
  induction bs generalizing m a with
  | nil => rfl
  | cons b bs ih =>
    simp only [List.length_cons] at h
    rw [Memory.storeBytes, ih (by omega), Memory.read_write_ne b (by omega)]

/-- Bytes stored inside memory keep the canonical form. -/
theorem Memory.storeBytes_wf {m : Memory} {a : Nat} {bs : Bytes} (h : m.wf) (ha : a + bs.length ≤ Config.memSize) :
    (Memory.storeBytes m a bs).wf := by
  induction bs generalizing m a with
  | nil => exact h
  | cons b bs ih =>
    simp only [List.length_cons] at ha
    exact ih (Memory.write_wf b h (by omega)) (by omega)

/-- The k-th stored byte reads back at the k-th address. -/
theorem Memory.read_storeBytes_inside {m : Memory} {a k : Nat} {bs : Bytes} (h : m.wf)
    (ha : a + bs.length ≤ Config.memSize) (hk : k < bs.length) :
    Memory.read (Memory.storeBytes m a bs) (a + k) = bs[k] := by
  induction bs generalizing m a k with
  | nil => simp at hk
  | cons b bs ih =>
    simp only [List.length_cons] at ha hk
    rw [Memory.storeBytes]
    cases k with
    | zero =>
      rw [Memory.read_storeBytes_outside (by omega)]
      simpa using Memory.read_write_same a b h
    | succ k =>
      have := ih (m := Memory.write m a b) (a := a + 1) (k := k) (Memory.write_wf b h (by omega)) (by omega) (by omega)
      simpa [Nat.add_assoc, Nat.add_comm 1 k] using this

/-- Canonical memories that read alike are the same list. -/
theorem Memory.ext_of_wf {m n : Memory} (hm : m.wf) (hn : n.wf) (h : ∀ a, Memory.read m a = Memory.read n a) :
    m = n := by
  induction m generalizing n with
  | nil =>
    cases n with
    | nil => rfl
    | cons c rest =>
      obtain ⟨c, d⟩ := c
      have := h c
      rw [Memory.read_cons, if_pos rfl, Memory.read_nil] at this
      exact absurd this.symm (Memory.wf_tail hn).2.2.2
  | cons c rest ih =>
    obtain ⟨c, d⟩ := c
    obtain ⟨hr, hlt, -, hd⟩ := Memory.wf_tail hm
    cases n with
    | nil =>
      have := h c
      rw [Memory.read_cons, if_pos rfl, Memory.read_nil] at this
      exact absurd this hd
    | cons e rest' =>
      obtain ⟨e, f⟩ := e
      obtain ⟨hr', hlt', -, hf⟩ := Memory.wf_tail hn
      have hce : c = e := by
        rcases Nat.lt_trichotomy c e with hl | he | hg
        · have := h c
          rw [Memory.read_cons, if_pos rfl, Memory.read_unlisted] at this
          · exact absurd this hd
          · intro x hx
            rcases List.mem_cons.mp hx with rfl | hx
            · exact Nat.ne_of_gt hl
            · have := hlt' x hx; omega
        · exact he
        · have := (h e).symm
          rw [Memory.read_cons, if_pos rfl, Memory.read_unlisted] at this
          · exact absurd this hf
          · intro x hx
            rcases List.mem_cons.mp hx with rfl | hx
            · exact Nat.ne_of_gt hg
            · have := hlt x hx; omega
      subst hce
      have hdf : d = f := by
        have := h c
        rwa [Memory.read_cons, if_pos rfl, Memory.read_cons, if_pos rfl] at this
      subst hdf
      rw [ih hr hr' fun a => ?_]
      by_cases hca : c = a
      · subst hca
        rw [Memory.read_unlisted fun x hx => Nat.ne_of_gt (hlt x hx),
          Memory.read_unlisted fun x hx => Nat.ne_of_gt (hlt' x hx)]
      · have := h a
        rwa [Memory.read_cons, if_neg hca, Memory.read_cons, if_neg hca] at this

/-! ### The checks -/

/-- A check passes exactly when no address of the access has a fault. -/
theorem firstFault_none {p : Nat → Option Fault} {a n : Nat} :
    firstFault p a n = none ↔ ∀ k, k < n → p (a + k) = none := by
  induction n generalizing a with
  | zero => simp [firstFault]
  | succ n ih =>
    rw [firstFault]
    cases hp : p a with
    | some f =>
      simp only [reduceCtorEq, false_iff]
      intro h
      have := h 0 (by omega)
      simp [hp] at this
    | none =>
      simp only [ih]
      constructor
      · intro h k hk
        cases k with
        | zero => simpa using hp
        | succ k => have := h k (by omega); rwa [Nat.add_assoc, Nat.add_comm 1 k] at this
      · intro h k hk
        have := h (k + 1) (by omega)
        rwa [show a + (k + 1) = a + 1 + k from by omega] at this

/-- A check fails with the fault of the lowest failing address. -/
theorem firstFault_some {p : Nat → Option Fault} {a n : Nat} {f : Fault} :
    firstFault p a n = some f ↔ ∃ k, k < n ∧ p (a + k) = some f ∧ ∀ j, j < k → p (a + j) = none := by
  induction n generalizing a with
  | zero => simp [firstFault]
  | succ n ih =>
    rw [firstFault]
    cases hp : p a with
    | some g =>
      simp only [Option.some.injEq]
      constructor
      · rintro rfl
        exact ⟨0, by omega, by simpa using hp, fun j hj => absurd hj (Nat.not_lt_zero j)⟩
      · rintro ⟨k, -, hk, hlow⟩
        cases k with
        | zero => simpa [hp] using hk
        | succ k => have := hlow 0 (by omega); simp [hp] at this
    | none =>
      simp only [ih]
      constructor
      · rintro ⟨k, hk, hf, hlow⟩
        refine ⟨k + 1, by omega, by rwa [show a + (k + 1) = a + 1 + k from by omega], fun j hj => ?_⟩
        cases j with
        | zero => simpa using hp
        | succ j => have := hlow j (by omega); rwa [Nat.add_assoc, Nat.add_comm 1 j] at this
      · rintro ⟨k, hk, hf, hlow⟩
        cases k with
        | zero => simp [hp] at hf
        | succ k =>
          refine ⟨k, by omega, by rwa [show a + (k + 1) = a + 1 + k from by omega] at hf, fun j hj => ?_⟩
          have := hlow (j + 1) (by omega)
          rwa [show a + (j + 1) = a + 1 + j from by omega] at this

theorem boundsFault_none {kind : AccessKind} {pc : Word} {a : Nat} :
    boundsFault kind pc a = none ↔ a < Config.memSize := by
  unfold boundsFault; split <;> simp_all

theorem writeFault_none {pc : Word} {a : Nat} :
    writeFault pc a = none ↔ Config.fontSize ≤ a ∧ a < Config.memSize := by
  unfold writeFault boundsFault
  by_cases h : a < Config.memSize <;> by_cases h' : a < Config.fontSize <;> simp [h, h']; omega

/-- CheckRead passes exactly when no byte is read or all lie inside memory (20_memory.md R56). -/
theorem checkRead_none {pc : Word} {a n : Nat} : checkRead pc a n = none ↔ n = 0 ∨ a + n ≤ Config.memSize := by
  rw [checkRead, firstFault_none]
  simp only [boundsFault_none]
  constructor
  · intro h
    cases n with
    | zero => exact .inl rfl
    | succ n => have := h n (by omega); omega
  · intro h k hk; omega

/-- CheckWrite passes exactly when no byte is written or all lie between the font and the end (20_memory.md R57). -/
theorem checkWrite_none {pc : Word} {a n : Nat} :
    checkWrite pc a n = none ↔ n = 0 ∨ (Config.fontSize ≤ a ∧ a + n ≤ Config.memSize) := by
  rw [checkWrite, firstFault_none]
  simp only [writeFault_none]
  constructor
  · intro h
    cases n with
    | zero => exact .inl rfl
    | succ n => have h0 := h 0 (by omega); have := h n (by omega); omega
  · intro h k hk; omega

/-- CheckFetch passes exactly when PC + 1 lies inside memory (20_memory.md R56). -/
theorem checkFetch_none {pc : Word} : checkFetch pc = none ↔ pc.toNat + 1 < Config.memSize := by
  rw [checkFetch, firstFault_none]
  simp only [boundsFault_none]
  constructor
  · intro h; exact h 1 (by omega)
  · intro h k hk; omega

end Sys2Proof.Machine
end

