-- ==== Sys2Proof/Laws/Ops.lean ====
section
/-! SUPPORT. One lemma per shared operation of Ops, Operands and Flags, saying what it does. -/

namespace Sys2Proof.Machine

variable (s : State)

/-! ### The call stack -/

/-- The push: the entry at SP written, SP one more, all else kept; refused exactly when SP = 16. -/
theorem State.push_cases (w : Word) :
    (s.sp.val = 16 ∧ s.push w = none) ∨
    (∃ h : s.sp.val < 16, ∃ h' : s.sp.val + 1 < 17,
      s.push w = some { s with stack := s.stack.set s.sp.val w h, sp := ⟨s.sp.val + 1, h'⟩ }) := by
  by_cases h : s.sp.val < 16
  · exact .inr ⟨h, by omega, by simp [State.push, h]⟩
  · exact .inl ⟨by omega, by simp [State.push, h]⟩

/-- The pop: the entry below SP, SP one less, all else kept; refused exactly when SP = 0. -/
theorem State.pop_cases :
    (s.sp.val = 0 ∧ s.pop = none) ∨
    (∃ h : s.sp.val - 1 < 16, ∃ h' : s.sp.val - 1 < 17, 0 < s.sp.val ∧
      s.pop = some (s.stack[s.sp.val - 1]'h, { s with sp := ⟨s.sp.val - 1, h'⟩ })) := by
  by_cases h : s.sp.val = 0
  · exact .inl ⟨h, by simp [State.pop, h]⟩
  · exact .inr ⟨by omega, by omega, by omega, by simp [State.pop, State.stackAt, h]⟩

/-! ### Ends of an instruction -/

theorem State.advance_eq (d : Word) :
    s.advance d = .next ((s.setPc (s.pc + d)).setOutcome .progressed) := rfl
theorem State.done_eq : s.done = .next ((s.setPc (s.pc + 2)).setOutcome .progressed) := rfl
theorem State.jumpTo_eq (w : Word) : s.jumpTo w = .next ((s.setPc w).setOutcome .progressed) := rfl
theorem State.block_eq : s.block = .next (s.setOutcome .blocked) := rfl
theorem State.takeFault_eq (f : Fault) : s.takeFault f = .next (s.raise f) := rfl
@[simp] theorem State.guarded_none (go : Result) : s.guarded none go = go := rfl
@[simp] theorem State.guarded_some (f : Fault) (go : Result) : s.guarded (some f) go = .next (s.raise f) := rfl

/-! ### Fetch and the end of a step -/

/-- The fetch: the two bytes at PC, the first one high, when both lie inside memory. -/
theorem State.fetch_ok (h : s.pc.toNat + 1 < Config.memSize) :
    s.fetch = .ok (wordOfBytes (s.mem.read s.pc.toNat) (s.mem.read (s.pc.toNat + 1))) := by
  rw [State.fetch, checkFetch_none.mpr h]

/-- The fetch fails with the fault of the lower failing address. -/
theorem State.fetch_error (h : ¬ s.pc.toNat + 1 < Config.memSize) :
    s.fetch = .error (.memoryBounds (if s.pc.toNat = 0xFFF then 0x1000 else s.pc.toNat) .fetch s.pc) := by
  have hc : checkFetch s.pc =
      some (.memoryBounds (if s.pc.toNat = 0xFFF then 0x1000 else s.pc.toNat) .fetch s.pc) := by
    rw [checkFetch, firstFault_some]
    simp only [Config.memSize] at h
    by_cases he : s.pc.toNat = 0xFFF
    · refine ⟨1, by omega, ?_, fun j hj => ?_⟩
      · simp [boundsFault, he, Config.memSize]
      · have : j = 0 := by omega
        subst this
        simp [boundsFault, he, Config.memSize]
    · refine ⟨0, by omega, ?_, fun j hj => absurd hj (Nat.not_lt_zero j)⟩
      have : ¬ s.pc.toNat < 0x1000 := by omega
      simp [boundsFault, he, Config.memSize, this]
  rw [State.fetch, hc]

theorem State.finish_progressed (h : s.outcome = .progressed) : s.finish = s.tick := by
  rw [State.finish, h]
theorem State.finish_other (h : s.outcome ≠ .progressed) : s.finish = s.setTone false := by
  unfold State.finish; split
  · next h' => exact absurd h' h
  · rfl

/-- A word stored at PC is the word the fetch reads. -/
theorem State.placeWord_fetch (w : Word) (hm : s.mem.wf) (h : s.pc.toNat + 1 < Config.memSize) :
    (s.placeWord w).fetch = .ok (wordOfBytes (w.extractLsb' 8 8) (w.extractLsb' 0 8)) := by
  have hp : s.placeWord w =
      s.setMem (s.mem.storeBytes s.pc.toNat [w.extractLsb' 8 8, w.extractLsb' 0 8]) := by simp [State.placeWord, h]
  have hl : s.pc.toNat + [w.extractLsb' 8 8, w.extractLsb' 0 8].length ≤ Config.memSize := by simp; omega
  rw [hp, State.fetch_ok _ (by simpa using h)]
  have h0 := Memory.read_storeBytes_inside (k := 0) hm hl (by simp)
  have h1 := Memory.read_storeBytes_inside (k := 1) hm hl (by simp)
  simp only [Nat.add_zero] at h0
  simp only [State.setMem_mem, State.setMem_pc, h0, h1]
  rfl

/-! ### Runs of registers -/

@[simp] theorem State.regRun_length (x : Nibble) : (s.regRun x).length = regCount x := by simp [State.regRun]

@[simp] theorem State.regRun_getElem (x : Nibble) (k : Nat) (h : k < (s.regRun x).length) :
    (s.regRun x)[k] = s.getV (BitVec.ofNat 4 k) := by simp [State.regRun]

@[simp] theorem decimalDigits_length (b : Byte) : (decimalDigits b).length = 3 := rfl

/-- A load writes registers only: V[r] is the r-th loaded byte for r below the count, else what it was. -/
theorem State.loadRun_spec (a n : Nat) (hn : n ≤ 16) :
    ∃ v, s.loadRun a n = { s with v := v } ∧
      ∀ r : Nibble, (s.loadRun a n).getV r = if r.toNat < n then s.mem.read (a + r.toNat) else s.getV r := by
  induction n with
  | zero => exact ⟨s.v, rfl, fun r => by simp [State.loadRun]⟩
  | succ n ih =>
    obtain ⟨v, he, hr⟩ := ih (by omega)
    have hs : s.loadRun a (n + 1) = (s.loadRun a n).setV (BitVec.ofNat 4 n) (s.mem.read (a + n)) := by
      simp [State.loadRun, List.range_succ]
    have hk : (BitVec.ofNat 4 n).toNat = n := by simp; omega
    refine ⟨((s.loadRun a n).setV (BitVec.ofNat 4 n) (s.mem.read (a + n))).v, ?_, fun r => ?_⟩
    · rw [hs, he]; rfl
    · rw [hs, State.setV_getV, hr]
      by_cases h : r = BitVec.ofNat 4 n
      · subst h; simp only [hk]; simp
      · have : r.toNat ≠ n := fun e => h (by rw [← e]; simp)
        simp only [h, if_false]
        by_cases hl : r.toNat < n
        · simp [hl, Nat.lt_succ_of_lt hl]
        · have : ¬ r.toNat < n + 1 := by omega
          simp [hl, this]

/-! ### Keys -/

/-- The flag of a key named by a value up to 15; none above. -/
theorem State.keyFlag_eq (k : Byte) :
    s.keyFlag k = if h : k.toNat < 16 then some (s.keys[k.toNat]'h) else none := by
  unfold State.keyFlag; split <;> simp_all

/-- No lowest key exactly when no key is pressed. -/
theorem State.lowestKey_none : s.lowestKey = none ↔ ∀ (k : Nat) (h : k < 16), s.keys[k]'h = false := by
  unfold State.lowestKey
  rw [List.find?_eq_none]
  constructor
  · intro h k hk
    have := h k (by simpa using hk)
    simpa [Vector.getElem?_eq_getElem hk] using this
  · intro h k hk
    have hk : k < 16 := by simpa using hk
    simp [Vector.getElem?_eq_getElem hk, h k hk]

/-- The lowest key is pressed and none below it is. -/
theorem State.lowestKey_some (k : Nat) :
    s.lowestKey = some k ↔ ∃ h : k < 16, s.keys[k]'h = true ∧ ∀ (j : Nat) (hj : j < k), s.keys[j]'(by omega) = false := by
  unfold State.lowestKey
  rw [List.find?_range_eq_some]
  constructor
  · rintro ⟨h1, h2, h3⟩
    have hk : k < 16 := by simpa using h2
    refine ⟨hk, by simpa [Vector.getElem?_eq_getElem hk] using h1, fun j hj => ?_⟩
    have := h3 j hj
    simpa [Vector.getElem?_eq_getElem (show j < 16 by omega)] using this
  · rintro ⟨hk, h1, h2⟩
    refine ⟨by simp [Vector.getElem?_eq_getElem hk, h1], by simpa using hk, fun j hj => ?_⟩
    have := h2 j hj
    simp [Vector.getElem?_eq_getElem (show j < 16 by omega), this]

end Sys2Proof.Machine
end

