-- ==== Sys2Proof/Laws/PerInstr.lean ====
section
/-! SUPPORT. The per-instruction law EncodedRow: the canonical word of an instruction belongs to the instruction's own
row of the opcode map (30_encoding.md R86, R92). -/

namespace Sys2Proof.Laws.EncodedRow

/-- The row of `i` holds of the word `i` is encoded as. -/
def Statement (i : Instr) : Prop := (opRow i).holds (encode i) = true

theorem cls : Statement .cls := by unfold Statement; decide
theorem ret : Statement .ret := by unfold Statement; decide
theorem jp (nnn : Addr12) : Statement (.jp nnn) := by
  simp only [Statement, OpRow.holds, opRow, encode, wordA_mask]; decide
theorem call (nnn : Addr12) : Statement (.call nnn) := by
  simp only [Statement, OpRow.holds, opRow, encode, wordA_mask]; decide
theorem seByte (x : Nibble) (nn : Byte) : Statement (.seByte x nn) := by
  simp only [Statement, OpRow.holds, opRow, encode, wordXB_mask]; decide
theorem sneByte (x : Nibble) (nn : Byte) : Statement (.sneByte x nn) := by
  simp only [Statement, OpRow.holds, opRow, encode, wordXB_mask]; decide
theorem seReg (x : Nibble) (y : Nibble) : Statement (.seReg x y) := by
  simp only [Statement, OpRow.holds, opRow, encode, wordXYN_mask_nibble]; decide
theorem ldByte (x : Nibble) (nn : Byte) : Statement (.ldByte x nn) := by
  simp only [Statement, OpRow.holds, opRow, encode, wordXB_mask]; decide
theorem addByte (x : Nibble) (nn : Byte) : Statement (.addByte x nn) := by
  simp only [Statement, OpRow.holds, opRow, encode, wordXB_mask]; decide
theorem ldReg (x : Nibble) (y : Nibble) : Statement (.ldReg x y) := by
  simp only [Statement, OpRow.holds, opRow, encode, wordXYN_mask_nibble]; decide
theorem orReg (x : Nibble) (y : Nibble) : Statement (.orReg x y) := by
  simp only [Statement, OpRow.holds, opRow, encode, wordXYN_mask_nibble]; decide
theorem andReg (x : Nibble) (y : Nibble) : Statement (.andReg x y) := by
  simp only [Statement, OpRow.holds, opRow, encode, wordXYN_mask_nibble]; decide
theorem xorReg (x : Nibble) (y : Nibble) : Statement (.xorReg x y) := by
  simp only [Statement, OpRow.holds, opRow, encode, wordXYN_mask_nibble]; decide
theorem addReg (x : Nibble) (y : Nibble) : Statement (.addReg x y) := by
  simp only [Statement, OpRow.holds, opRow, encode, wordXYN_mask_nibble]; decide
theorem subReg (x : Nibble) (y : Nibble) : Statement (.subReg x y) := by
  simp only [Statement, OpRow.holds, opRow, encode, wordXYN_mask_nibble]; decide
theorem shr (x : Nibble) : Statement (.shr x) := by
  simp only [Statement, OpRow.holds, opRow, encode, wordXYN_mask_nibble]; decide
theorem subnReg (x : Nibble) (y : Nibble) : Statement (.subnReg x y) := by
  simp only [Statement, OpRow.holds, opRow, encode, wordXYN_mask_nibble]; decide
theorem shl (x : Nibble) : Statement (.shl x) := by
  simp only [Statement, OpRow.holds, opRow, encode, wordXYN_mask_nibble]; decide
theorem sneReg (x : Nibble) (y : Nibble) : Statement (.sneReg x y) := by
  simp only [Statement, OpRow.holds, opRow, encode, wordXYN_mask]; decide
theorem ldI (nnn : Addr12) : Statement (.ldI nnn) := by
  simp only [Statement, OpRow.holds, opRow, encode, wordA_mask]; decide
theorem jpV0 (nnn : Addr12) : Statement (.jpV0 nnn) := by
  simp only [Statement, OpRow.holds, opRow, encode, wordA_mask]; decide
theorem rnd (x : Nibble) (nn : Byte) : Statement (.rnd x nn) := by
  simp only [Statement, OpRow.holds, opRow, encode, wordXB_mask]; decide
theorem drw (x : Nibble) (y : Nibble) (n : Nibble) : Statement (.drw x y n) := by
  simp only [Statement, OpRow.holds, opRow, encode, wordXYN_mask]; decide
theorem skp (x : Nibble) : Statement (.skp x) := by
  simp only [Statement, OpRow.holds, opRow, encode, wordXB_mask_byte]; decide
theorem sknp (x : Nibble) : Statement (.sknp x) := by
  simp only [Statement, OpRow.holds, opRow, encode, wordXB_mask_byte]; decide
theorem ldVxDt (x : Nibble) : Statement (.ldVxDt x) := by
  simp only [Statement, OpRow.holds, opRow, encode, wordXB_mask_byte]; decide
theorem ldVxK (x : Nibble) : Statement (.ldVxK x) := by
  simp only [Statement, OpRow.holds, opRow, encode, wordXB_mask_byte]; decide
theorem ldDtVx (x : Nibble) : Statement (.ldDtVx x) := by
  simp only [Statement, OpRow.holds, opRow, encode, wordXB_mask_byte]; decide
theorem ldStVx (x : Nibble) : Statement (.ldStVx x) := by
  simp only [Statement, OpRow.holds, opRow, encode, wordXB_mask_byte]; decide
theorem addI (x : Nibble) : Statement (.addI x) := by
  simp only [Statement, OpRow.holds, opRow, encode, wordXB_mask_byte]; decide
theorem ldF (x : Nibble) : Statement (.ldF x) := by
  simp only [Statement, OpRow.holds, opRow, encode, wordXB_mask_byte]; decide
theorem ldB (x : Nibble) : Statement (.ldB x) := by
  simp only [Statement, OpRow.holds, opRow, encode, wordXB_mask_byte]; decide
theorem storeRegs (x : Nibble) : Statement (.storeRegs x) := by
  simp only [Statement, OpRow.holds, opRow, encode, wordXB_mask_byte]; decide
theorem loadRegs (x : Nibble) : Statement (.loadRegs x) := by
  simp only [Statement, OpRow.holds, opRow, encode, wordXB_mask_byte]; decide

end Sys2Proof.Laws.EncodedRow
end

