-- ==== Sys2Proof/Laws/Step.lean ====
section
/-! SUPPORT. Everything executing an instruction can do, and everything a step can do. -/

namespace Sys2Proof.Machine

/-- What a completed instruction does to the parts the invariant speaks of. -/
structure Went (s t : State) : Prop where
  outcome : t.outcome = .progressed
  status : t.status = s.status
  keys : t.keys = s.keys
  tone : t.tone = s.tone
  mem : t.mem = s.mem ∨ ∃ bs : Bytes, Config.fontSize ≤ s.base ∧ s.base + bs.length ≤ Config.memSize ∧
    t.mem = s.mem.storeBytes s.base bs
  pc : t.pc = s.pc + 2 ∨ t.pc = s.pc + 4 ∨ (∃ nnn, t.pc = addrOperand nnn) ∨
    (∃ nnn b, t.pc = addrOperand nnn + wide b) ∨ (∃ (k : Nat) (h : k < 16), t.pc = s.stack[k]'h + 2)
  stack : ∀ (k : Nat) (h : k < 16), t.stack[k]'h = s.stack[k]'h ∨ t.stack[k]'h = s.pc

/-- A result that is a completed next state. -/
def Progresses (s : State) (r : Result) : Prop := ∃ t, r = .next t ∧ Went s t

/-- `done` after updates that keep the parts of `Went`. -/
theorem Progresses.done {s u : State} (h1 : u.status = s.status) (h2 : u.keys = s.keys) (h3 : u.tone = s.tone)
    (h4 : u.mem = s.mem ∨ ∃ bs : Bytes, Config.fontSize ≤ s.base ∧ s.base + bs.length ≤ Config.memSize ∧
      u.mem = s.mem.storeBytes s.base bs)
    (h5 : u.pc = s.pc) (h6 : u.stack = s.stack) : Progresses s u.done :=
  ⟨_, rfl, rfl, h1, h2, h3, h4, .inl (by simp [h5]), fun k h => .inl (by simp [h6])⟩

/-- A skip completes. -/
theorem Progresses.skipIf (s : State) (b : Bool) : Progresses s (s.skipIf b) :=
  ⟨_, rfl, rfl, rfl, rfl, rfl, .inl rfl, by cases b <;> simp, fun _ _ => .inl rfl⟩

/-- A jump without a pop or a push completes. -/
theorem Progresses.jumpTo {s : State} {w : Word}
    (h : (∃ nnn, w = addrOperand nnn) ∨ (∃ nnn b, w = addrOperand nnn + wide b)) : Progresses s (s.jumpTo w) :=
  ⟨_, rfl, rfl, rfl, rfl, rfl, .inl rfl, .inr (.inr (h.imp id .inl)), fun _ _ => .inl rfl⟩

/-- Executing an instruction answers a next state: it raises a fault, or it is FX0A with no key pressed and it
blocks, or it completes. -/
theorem exec_cases (i : Instr) (s : State) :
    (∃ f, exec i s = .next (s.raise f)) ∨
    (∃ x, i = .ldVxK x ∧ s.lowestKey = none ∧ exec i s = .next (s.setOutcome .blocked)) ∨
    Progresses s (exec i s) := by
  cases i with
  | cls => exact .inr (.inr (.done rfl rfl rfl (.inl rfl) rfl rfl))
  | ret =>
    simp only [exec, execRet]
    rcases s.pop_cases with ⟨-, h⟩ | ⟨hk, _, -, h⟩
    · rw [h]; exact .inl ⟨_, rfl⟩
    · rw [h]
      exact .inr (.inr ⟨_, rfl, rfl, rfl, rfl, rfl, .inl rfl, .inr (.inr (.inr (.inr ⟨_, hk, rfl⟩))),
        fun _ _ => .inl rfl⟩)
  | jp nnn => exact .inr (.inr (.jumpTo (.inl ⟨nnn, rfl⟩)))
  | call nnn =>
    simp only [exec, execCall]
    rcases s.push_cases s.pc with ⟨-, h⟩ | ⟨hk, _, h⟩
    · rw [h]; exact .inl ⟨_, rfl⟩
    · rw [h]
      refine .inr (.inr ⟨_, rfl, rfl, rfl, rfl, rfl, .inl rfl, .inr (.inr (.inl ⟨nnn, rfl⟩)), fun k h => ?_⟩)
      show (s.stack.set s.sp.val s.pc hk)[k]'h = _ ∨ (s.stack.set s.sp.val s.pc hk)[k]'h = _
      rw [Vector.getElem_set]
      split
      · exact .inr rfl
      · exact .inl rfl
  | seByte => exact .inr (.inr (.skipIf _ _))
  | sneByte => exact .inr (.inr (.skipIf _ _))
  | seReg => exact .inr (.inr (.skipIf _ _))
  | ldByte => exact .inr (.inr (.done rfl rfl rfl (.inl rfl) rfl rfl))
  | addByte => exact .inr (.inr (.done rfl rfl rfl (.inl rfl) rfl rfl))
  | ldReg => exact .inr (.inr (.done rfl rfl rfl (.inl rfl) rfl rfl))
  | orReg => exact .inr (.inr (.done rfl rfl rfl (.inl rfl) rfl rfl))
  | andReg => exact .inr (.inr (.done rfl rfl rfl (.inl rfl) rfl rfl))
  | xorReg => exact .inr (.inr (.done rfl rfl rfl (.inl rfl) rfl rfl))
  | addReg => exact .inr (.inr (.done rfl rfl rfl (.inl rfl) rfl rfl))
  | subReg => exact .inr (.inr (.done rfl rfl rfl (.inl rfl) rfl rfl))
  | shr => exact .inr (.inr (.done rfl rfl rfl (.inl rfl) rfl rfl))
  | subnReg => exact .inr (.inr (.done rfl rfl rfl (.inl rfl) rfl rfl))
  | shl => exact .inr (.inr (.done rfl rfl rfl (.inl rfl) rfl rfl))
  | sneReg => exact .inr (.inr (.skipIf _ _))
  | ldI => exact .inr (.inr (.done rfl rfl rfl (.inl rfl) rfl rfl))
  | jpV0 nnn => exact .inr (.inr (.jumpTo (.inr ⟨nnn, _, rfl⟩)))
  | rnd => exact .inr (.inr (.done rfl rfl rfl (.inl rfl) rfl rfl))
  | drw x y n =>
    simp only [exec, execDrw]
    cases checkRead s.pc s.base n.toNat with
    | some f => exact .inl ⟨f, rfl⟩
    | none => exact .inr (.inr (.done rfl rfl rfl (.inl rfl) rfl rfl))
  | skp x =>
    simp only [exec, execSkp, State.skipOnKey]
    cases s.keyFlag (s.getV x) with
    | none => exact .inl ⟨_, rfl⟩
    | some b => exact .inr (.inr (.skipIf _ _))
  | sknp x =>
    simp only [exec, execSknp, State.skipOnKey]
    cases s.keyFlag (s.getV x) with
    | none => exact .inl ⟨_, rfl⟩
    | some b => exact .inr (.inr (.skipIf _ _))
  | ldVxDt => exact .inr (.inr (.done rfl rfl rfl (.inl rfl) rfl rfl))
  | ldVxK x =>
    simp only [exec, execLdVxK]
    cases h : s.lowestKey with
    | none => exact .inr (.inl ⟨x, rfl, rfl, rfl⟩)
    | some k => exact .inr (.inr (.done rfl rfl rfl (.inl rfl) rfl rfl))
  | ldDtVx => exact .inr (.inr (.done rfl rfl rfl (.inl rfl) rfl rfl))
  | ldStVx => exact .inr (.inr (.done rfl rfl rfl (.inl rfl) rfl rfl))
  | addI => exact .inr (.inr (.done rfl rfl rfl (.inl rfl) rfl rfl))
  | ldF => exact .inr (.inr (.done rfl rfl rfl (.inl rfl) rfl rfl))
  | ldB x =>
    simp only [exec, execLdB]
    cases h : checkWrite s.pc s.base 3 with
    | some f => exact .inl ⟨f, rfl⟩
    | none =>
      have hb := (checkWrite_none.mp h).resolve_left (by omega)
      exact .inr (.inr (.done rfl rfl rfl (.inr ⟨_, hb.1, by simpa using hb.2, rfl⟩) rfl rfl))
  | storeRegs x =>
    simp only [exec, execStoreRegs]
    cases h : checkWrite s.pc s.base (regCount x) with
    | some f => exact .inl ⟨f, rfl⟩
    | none =>
      have hb := (checkWrite_none.mp h).resolve_left (by simp [regCount])
      exact .inr (.inr (.done rfl rfl rfl (.inr ⟨_, hb.1, by simpa using hb.2, rfl⟩) rfl rfl))
  | loadRegs x =>
    simp only [exec, execLoadRegs]
    cases checkRead s.pc s.base (regCount x) with
    | some f => exact .inl ⟨f, rfl⟩
    | none =>
      obtain ⟨v, hv, -⟩ := s.loadRun_spec s.base (regCount x) (by have := x.isLt; simp only [regCount]; omega)
      rw [hv]
      exact .inr (.inr (.done rfl rfl rfl (.inl rfl) rfl rfl))

/-- A step of a running block: the fetch fails, the word is illegal, or the instruction at PC is executed and the
step ends. -/
theorem step_running {s : State} (h : s.status = .running) :
    (¬ s.pc.toNat + 1 < Config.memSize ∧ ∃ f, step s = .next (s.raise f).finish) ∨
    (s.pc.toNat + 1 < Config.memSize ∧ ∃ w, s.fetch = .ok w ∧
      ((∃ e, decode w = .error e ∧ step s = .next (s.raise (.decodeError w s.pc)).finish) ∨
       (∃ i t, decode w = .ok i ∧ exec i s = .next t ∧ step s = .next t.finish))) := by
  by_cases hp : s.pc.toNat + 1 < Config.memSize
  · refine .inr ⟨hp, _, s.fetch_ok hp, ?_⟩
    unfold step
    rw [h, s.fetch_ok hp]
    dsimp only
    cases hd : decode (wordOfBytes (s.mem.read s.pc.toNat) (s.mem.read (s.pc.toNat + 1))) with
    | error e => exact .inl ⟨e, rfl, rfl⟩
    | ok i =>
      right
      rcases exec_cases i s with ⟨f, hx⟩ | ⟨x, -, -, hx⟩ | ⟨t, hx, -⟩ <;>
        exact ⟨i, _, rfl, hx, by simp only [hx]⟩
  · refine .inl ⟨hp, .memoryBounds (if s.pc.toNat = 0xFFF then 0x1000 else s.pc.toNat) .fetch s.pc, ?_⟩
    unfold step
    rw [h, s.fetch_error hp]

/-- A Faulted block has no step. -/
theorem step_faulted {s : State} {f : Fault} (h : s.status = .faulted f) : step s = .fault f := by
  unfold step; rw [h]

end Sys2Proof.Machine
end

