-- ==== Sys2Proof/Tests/Slice0.lean ====
section
/-! SUPPORT. Tests on words and values of the spec (30_encoding.md section 3, 95_test_vectors.md), each naming its
source, and for each statement of Obligations.lean with hypotheses a state and operands that meet them. -/

open Sys2Proof Sys2Proof.Machine

/-! ### Helpers -/

/-- `p` holds of the next state, and there is one. -/
def nextSuch (r : Result) (p : State → Bool) : Bool :=
  match r with
  | .next t => p t
  | _ => false

/-- One step of `w` from `s`, judged by `p`. -/
def stepSuch (s : State) (w : Nat) (p : State → Bool) : Bool := nextSuch (step (s.withFetchWord 16 w)) p

/-- The reset state with some registers set. -/
def withRegs (rs : List (Nibble × Byte)) : State := rs.foldl (fun s r => s.setV r.1 r.2) State.reset

/-- A state with some pixels flipped, frame_changed left as it is. -/
def withPixels (ps : List (Nat × Nat)) (s : State) : State :=
  { s with fb := ps.foldl (fun fb p => flipPixel fb p.1 p.2) s.fb }

/-- A state with bytes stored from `a` on. -/
def withBytes (a : Nat) (bs : Bytes) (s : State) : State := s.setMem (s.mem.storeBytes a bs)

/-- A state with a key pressed. -/
def withKey (k : Nibble) (s : State) : State := s.keyEvent (.press k)

/-- A step that raised `f` and left PC, I, VF and the timers. -/
def raised (s : State) (w : Nat) (f : Fault) : Bool :=
  stepSuch s w fun t => t.status == .faulted f && t.outcome == .fault f && t.pc == s.pc && t.i == s.i &&
    t.v == s.v && t.dt == s.dt && t.st == s.st && t.sp == s.sp && t.tone == false

/-! ### Decoding: a word of each row, its fields written out from 30_encoding.md R86 -/

theorem test_decode_cls : decode 0b0000_0000_1110_0000 = .ok .cls := by decide
theorem test_decode_ret : decode 0b0000_0000_1110_1110 = .ok .ret := by decide
theorem test_decode_jp : decode 0b0001_0010_0011_0100 = .ok (.jp 0x234) := by decide
theorem test_decode_call : decode 0b0010_0011_0000_0000 = .ok (.call 0x300) := by decide
theorem test_decode_seByte : decode 0b0011_0011_0100_0010 = .ok (.seByte 0x3 0x42) := by decide
theorem test_decode_sneByte : decode 0b0100_0011_0100_0010 = .ok (.sneByte 0x3 0x42) := by decide
theorem test_decode_seReg : decode 0b0101_0001_0010_0000 = .ok (.seReg 0x1 0x2) := by decide
theorem test_decode_ldByte : decode 0b0110_1010_0100_0010 = .ok (.ldByte 0xA 0x42) := by decide
theorem test_decode_addByte : decode 0b0111_0010_1111_1111 = .ok (.addByte 0x2 0xFF) := by decide
theorem test_decode_ldReg : decode 0b1000_0001_0010_0000 = .ok (.ldReg 0x1 0x2) := by decide
theorem test_decode_orReg : decode 0b1000_0001_0010_0001 = .ok (.orReg 0x1 0x2) := by decide
theorem test_decode_andReg : decode 0b1000_0001_0010_0010 = .ok (.andReg 0x1 0x2) := by decide
theorem test_decode_xorReg : decode 0b1000_0001_0010_0011 = .ok (.xorReg 0x1 0x2) := by decide
theorem test_decode_addReg : decode 0b1000_0001_0010_0100 = .ok (.addReg 0x1 0x2) := by decide
theorem test_decode_subReg : decode 0b1000_0001_0010_0101 = .ok (.subReg 0x1 0x2) := by decide
theorem test_decode_shr : decode 0b1000_0001_0010_0110 = .ok (.shr 0x1) := by decide
theorem test_decode_subnReg : decode 0b1000_0001_0010_0111 = .ok (.subnReg 0x1 0x2) := by decide
theorem test_decode_shl : decode 0b1000_0001_0010_1110 = .ok (.shl 0x1) := by decide
theorem test_decode_sneReg : decode 0b1001_0001_0010_0001 = .ok (.sneReg 0x1 0x2) := by decide
theorem test_decode_ldI : decode 0b1010_0001_0010_0011 = .ok (.ldI 0x123) := by decide
theorem test_decode_jpV0 : decode 0b1011_1111_1111_1111 = .ok (.jpV0 0xFFF) := by decide
theorem test_decode_rnd : decode 0b1100_0011_0000_1111 = .ok (.rnd 0x3 0x0F) := by decide
theorem test_decode_drw : decode 0b1101_0001_0010_0101 = .ok (.drw 0x1 0x2 0x5) := by decide
theorem test_decode_skp : decode 0b1110_0101_1001_1110 = .ok (.skp 0x5) := by decide
theorem test_decode_sknp : decode 0b1110_0101_1010_0001 = .ok (.sknp 0x5) := by decide
theorem test_decode_ldVxDt : decode 0b1111_0101_0000_0111 = .ok (.ldVxDt 0x5) := by decide
theorem test_decode_ldVxK : decode 0b1111_0010_0000_1010 = .ok (.ldVxK 0x2) := by decide
theorem test_decode_ldDtVx : decode 0b1111_0100_0001_0101 = .ok (.ldDtVx 0x4) := by decide
theorem test_decode_ldStVx : decode 0b1111_0110_0001_1000 = .ok (.ldStVx 0x6) := by decide
theorem test_decode_addI : decode 0b1111_0010_0001_1110 = .ok (.addI 0x2) := by decide
theorem test_decode_ldF : decode 0b1111_0100_0010_1001 = .ok (.ldF 0x4) := by decide
theorem test_decode_ldB : decode 0b1111_0000_0011_0011 = .ok (.ldB 0x0) := by decide
theorem test_decode_storeRegs : decode 0b1111_0010_0101_0101 = .ok (.storeRegs 0x2) := by decide
theorem test_decode_loadRegs : decode 0b1111_1111_0110_0101 = .ok (.loadRegs 0xF) := by decide

/-- 95_test_vectors.md 2.1: 0x0000 is CLS, 0x012E is RET (bits 11:4 ignored). -/
theorem test_decode_ignored_bits : decode 0x0000 = .ok .cls ∧ decode 0x012E = .ok .ret := by decide
/-- 30_encoding.md R86, R52: the table word of 8125 in memory order. -/
theorem test_decodeTableWord : decodeTableWord 16 0x8125 = some (.subReg 1 2) ∧ decodeTableWord 16 0x5121 = none := by
  decide
/-- 30_encoding.md R80: one byte is not an instruction. -/
theorem test_decode_truncated : decodeBytes [0x60] = .error .truncated := by decide

/-! ### WellFormed and decode refuse what is ill formed -/

/-- 95_test_vectors.md W3: an image of 3584 bytes fits, one of 3585 does not. -/
theorem test_wellformed_image :
    imageFits (List.replicate 3584 0x00) = true ∧ imageFits (List.replicate 3585 0x00) = false := by
  simp only [imageFits, List.length_replicate]; decide
/-- 95_test_vectors.md 2.1: illegal words of families 0, 5, 8, E, F; the map and the decoder both refuse them. -/
theorem test_illegal_words :
    [0x0001, 0x5121, 0x8008, 0xE000, 0xF000, 0xF0FF].all (fun w =>
      legalWord w == false && match decode w with | .error (.illegal w') => w' == w | _ => false) = true := by decide

/-! ### The step, the fetch and the tick (95_test_vectors.md section 2.1) -/

/-- 0x6000 with DT = 3, ST = 1: the tick, with the tone. -/
theorem test_tick_tone : stepSuch { State.reset with dt := 3, st := 1 } 0x6000
    (fun t => t.dt == 2 && t.st == 0 && t.tone && t.outcome == .progressed) = true := by decide
/-- 0x8008 with DT = 3, ST = 1: DecodeError, no tick. -/
theorem test_decode_error :
    raised { State.reset with dt := 3, st := 1 } 0x8008 (.decodeError 0x8008 0x200) = true := by decide
/-- PC = 0xFFF: the second byte of the fetch is outside memory. -/
theorem test_fetch_fault : raised { State.reset with pc := 0xFFF } 0
    (.memoryBounds 0x1000 .fetch 0xFFF) = true := by decide
/-- 0x1202 at the odd PC = 0x201. -/
theorem test_fetch_odd : stepSuch { State.reset with pc := 0x201 } 0x1202 (fun t => t.pc == 0x202) = true := by decide
/-- 40_cycle.md R111: a Faulted block has no step. -/
theorem test_faulted_stays :
    (match step { State.reset with status := .faulted (.stackUnderflow 0x200) } with
      | .fault f => f == .stackUnderflow 0x200 | _ => false) = true := by decide
/-- W1: image 60 05, one step. -/
theorem test_construct_and_step :
    (match construct (some [0x60, 0x05]) with
      | .ok s => nextSuch (step s) fun t => t.getV 0 == 5 && t.pc == 0x202
      | .error _ => false) = true := by decide

/-! ### Display (95_test_vectors.md section 2.2) -/

theorem test_cls : stepSuch (withPixels [(3, 4)] State.reset) 0x00E0
    (fun t => t.fb == FrameBuffer.blank && t.frameChanged && t.pc == 0x202) = true := by decide
/-- D011 with FF at (60,31): the row wraps; D011 with C0 over a set pixel (1,0): the collision; DF01: the column is
VF's old value, then VF is the flag. -/
theorem test_drw :
    stepSuch { withBytes 0x300 [0xFF] (withRegs [(0, 0x3C), (1, 0x1F)]) with i := 0x300 } 0xD011
      (fun t => t.fb == (withPixels [(0, 31), (1, 31), (2, 31), (3, 31), (60, 31), (61, 31), (62, 31), (63, 31)]
        State.reset).fb && t.getV 15 == 0) = true ∧
    stepSuch { withBytes 0x300 [0xC0] (withPixels [(1, 0)] State.reset) with i := 0x300 } 0xD011
      (fun t => t.fb == (withPixels [(0, 0)] State.reset).fb && t.getV 15 == 1 && t.frameChanged) = true ∧
    stepSuch { withBytes 0x300 [0x80] (withRegs [(15, 5)]) with i := 0x300 } 0xDF01
      (fun t => t.fb == (withPixels [(5, 0)] State.reset).fb && t.getV 15 == 0) = true := by decide
/-- D012 at I = 0xFFF faults on its second byte; D010 at I = 0xFFFF reads nothing and clears VF. -/
theorem test_drw_edges :
    raised { State.reset with i := 0xFFF } 0xD012 (.memoryBounds 0x1000 .read 0x200) = true ∧
    stepSuch { withRegs [(15, 1)] with i := 0xFFFF } 0xD010
      (fun t => t.fb == FrameBuffer.blank && t.getV 15 == 0 && t.frameChanged) = true := by decide

/-! ### Control transfer (section 2.3) -/

theorem test_jp : stepSuch { State.reset with dt := 2 } 0x1333 (fun t => t.pc == 0x333 && t.dt == 1) = true := by decide
/-- The 16th nested CALL succeeds. -/
theorem test_call_last : stepSuch { State.reset with sp := 15 } 0x2300
    (fun t => t.sp == 16 && t.stack[15] == 0x200 && t.pc == 0x300) = true := by decide
/-- The 17th faults. -/
theorem test_call_overflow : raised { State.reset with sp := 16 } 0x2300 (.stackOverflow 0x200) = true := by decide
theorem test_ret : stepSuch { State.reset with sp := 1, stack := State.reset.stack.set 0 0x204 } 0x00EE
    (fun t => t.sp == 0 && t.pc == 0x206 && t.stack[0] == 0x204) = true := by decide
theorem test_ret_underflow : raised State.reset 0x00EE (.stackUnderflow 0x200) = true := by decide
/-- BFFF with V0 = 1: PC = 0x1000, not reduced. -/
theorem test_jpV0 : stepSuch (withRegs [(0, 1)]) 0xBFFF (fun t => t.pc == 0x1000 && t.status == .running) = true := by
  decide

/-! ### Skips (section 2.4) -/

theorem test_seByte : stepSuch (withRegs [(3, 0x42)]) 0x3342 (fun t => t.pc == 0x204) = true := by decide
theorem test_seByte_not : stepSuch (withRegs [(3, 0x41)]) 0x3342 (fun t => t.pc == 0x202) = true := by decide
theorem test_sneByte : stepSuch State.reset 0x4342 (fun t => t.pc == 0x204) = true := by decide
theorem test_sneByte_not : stepSuch (withRegs [(3, 0x42)]) 0x4342 (fun t => t.pc == 0x202) = true := by decide
theorem test_seReg : stepSuch (withRegs [(1, 7), (2, 7)]) 0x5120 (fun t => t.pc == 0x204) = true := by decide
theorem test_seReg_not : stepSuch (withRegs [(1, 7), (2, 8)]) 0x5120 (fun t => t.pc == 0x202) = true := by decide
theorem test_sneReg : stepSuch (withRegs [(1, 1), (2, 2)]) 0x9121 (fun t => t.pc == 0x204) = true := by decide
theorem test_sneReg_not : stepSuch (withRegs [(1, 1)]) 0x9110 (fun t => t.pc == 0x202) = true := by decide
theorem test_skp : stepSuch (withKey 0xA (withRegs [(5, 0x0A)])) 0xE59E (fun t => t.pc == 0x204) = true := by decide
theorem test_skp_fault : raised (withRegs [(5, 0x10)]) 0xE59E (.keyIndex 0x10 0x200) = true := by decide
theorem test_sknp : stepSuch (withKey 0xA (withRegs [(5, 0x0A)])) 0xE5A1 (fun t => t.pc == 0x202) = true := by decide
theorem test_sknp_fault : raised (withRegs [(5, 0xFF)]) 0xE5A1 (.keyIndex 0xFF 0x200) = true := by decide

/-! ### Registers and ALU (section 2.5) -/

theorem test_ldByte : stepSuch (withRegs [(15, 1)]) 0x6F07 (fun t => t.getV 15 == 7 && t.pc == 0x202) = true := by decide
theorem test_addByte : stepSuch (withRegs [(2, 2), (15, 7)]) 0x72FF (fun t => t.getV 2 == 1 && t.getV 15 == 7) = true := by
  decide
theorem test_ldReg : stepSuch (withRegs [(1, 0x33)]) 0x8010 (fun t => t.getV 0 == 0x33 && t.getV 1 == 0x33) = true := by
  decide
theorem test_orReg : stepSuch (withRegs [(0, 0xF0), (1, 0x0F), (15, 5)]) 0x8011
    (fun t => t.getV 0 == 0xFF && t.getV 15 == 5) = true := by decide
theorem test_andReg : stepSuch (withRegs [(0, 0xF0), (1, 0x3C), (15, 5)]) 0x8012
    (fun t => t.getV 0 == 0x30 && t.getV 15 == 5) = true := by decide
theorem test_xorReg : stepSuch (withRegs [(0, 0xFF), (1, 0x0F), (15, 5)]) 0x8013
    (fun t => t.getV 0 == 0xF0 && t.getV 15 == 5) = true := by decide
theorem test_addReg : stepSuch (withRegs [(0, 0xC8), (1, 0x64)]) 0x8014
    (fun t => t.getV 0 == 0x2C && t.getV 15 == 1) = true := by decide
/-- X = F: the carry is what VF keeps. -/
theorem test_addReg_vf : stepSuch (withRegs [(15, 0x10), (1, 0x20)]) 0x8F14 (fun t => t.getV 15 == 0) = true := by decide
theorem test_subReg_equal : stepSuch (withRegs [(1, 0x32), (2, 0x32)]) 0x8125
    (fun t => t.getV 1 == 0 && t.getV 15 == 1) = true := by decide
theorem test_subReg_borrow : stepSuch (withRegs [(2, 1)]) 0x8125
    (fun t => t.getV 1 == 0xFF && t.getV 15 == 0) = true := by decide
theorem test_shr : stepSuch (withRegs [(0, 1), (1, 0xFF)]) 0x8016
    (fun t => t.getV 0 == 0 && t.getV 1 == 0xFF && t.getV 15 == 1) = true := by decide
theorem test_shr_vf : stepSuch (withRegs [(15, 3)]) 0x8F06 (fun t => t.getV 15 == 1) = true := by decide
theorem test_subnReg : stepSuch (withRegs [(0, 0x10), (1, 0x30)]) 0x8017
    (fun t => t.getV 0 == 0x20 && t.getV 15 == 1) = true := by decide
theorem test_subnReg_borrow : stepSuch (withRegs [(0, 1)]) 0x8017
    (fun t => t.getV 0 == 0xFF && t.getV 15 == 0) = true := by decide
theorem test_shl : stepSuch (withRegs [(0, 0x80), (1, 1)]) 0x801E
    (fun t => t.getV 0 == 0 && t.getV 1 == 1 && t.getV 15 == 1) = true := by decide
theorem test_shl_zero : stepSuch (withRegs [(0, 0x7F), (15, 1)]) 0x800E
    (fun t => t.getV 0 == 0xFE && t.getV 15 == 0) = true := by decide
/-- C30F: V3 is the free byte AND 0x0F, whatever it is. -/
theorem test_rnd : ∃ t, step (State.reset.withFetchWord 16 0xC30F) = .next t ∧
    t.getV 3 = Config.randomByte 0 &&& 0x0F ∧ t.pc = 0x202 := ⟨_, rfl, rfl, rfl⟩

/-! ### Index register and memory (section 2.6) -/

theorem test_ldI : stepSuch State.reset 0xAFFF (fun t => t.i == 0x0FFF && t.pc == 0x202) = true := by decide
theorem test_addI : stepSuch { (withRegs [(0, 1)]) with i := 0x0FFF } 0xF01E
    (fun t => t.i == 0x1000 && t.getV 15 == 1) = true := by decide
/-- FF1E: the operand is VF's old value. -/
theorem test_addI_vf : stepSuch { (withRegs [(15, 0x20)]) with i := 0x0100 } 0xFF1E
    (fun t => t.i == 0x0120 && t.getV 15 == 0) = true := by decide
theorem test_ldF : stepSuch (withRegs [(4, 0xFF)]) 0xF429 (fun t => t.i == 0x04FB) = true := by decide
theorem test_ldB : stepSuch { (withRegs [(0, 0xFE)]) with i := 0x300 } 0xF033
    (fun t => t.mem.read 0x300 == 2 && t.mem.read 0x301 == 5 && t.mem.read 0x302 == 4 && t.i == 0x300) = true := by decide
theorem test_ldB_font : raised (withRegs [(0, 7)]) 0xF033 (.fontWrite 0x000 0x200) = true := by decide
theorem test_storeRegs : stepSuch { (withRegs [(0, 1), (1, 2), (2, 3)]) with i := 0x300 } 0xF255
    (fun t => t.mem.read 0x300 == 1 && t.mem.read 0x301 == 2 && t.mem.read 0x302 == 3 && t.mem.read 0x303 == 0 &&
      t.i == 0x303) = true := by decide
theorem test_storeRegs_fault :
    raised { State.reset with i := 0xFF1 } 0xFF55 (.memoryBounds 0x1000 .write 0x200) = true := by decide
theorem test_loadRegs : stepSuch { withBytes 0x300 [2, 5, 4] State.reset with i := 0x300 } 0xF265
    (fun t => t.getV 0 == 2 && t.getV 1 == 5 && t.getV 2 == 4 && t.getV 3 == 0 && t.i == 0x303) = true := by decide
theorem test_loadRegs_fault :
    raised { State.reset with i := 0xFFF } 0xF165 (.memoryBounds 0x1000 .read 0x200) = true := by decide

/-! ### Timers and key wait (section 2.7) -/

theorem test_ldVxDt : stepSuch { State.reset with dt := 5 } 0xF507 (fun t => t.getV 5 == 5 && t.dt == 4) = true := by
  decide
theorem test_ldVxK : stepSuch (withKey 3 (withKey 7 State.reset)) 0xF20A
    (fun t => t.getV 2 == 3 && t.pc == 0x202) = true := by decide
theorem test_ldVxK_blocked : stepSuch { (withRegs [(2, 0x55)]) with dt := 4 } 0xF20A
    (fun t => t.getV 2 == 0x55 && t.pc == 0x200 && t.dt == 4 && t.outcome == .blocked) = true := by decide
theorem test_ldDtVx : stepSuch (withRegs [(4, 5)]) 0xF415 (fun t => t.dt == 4) = true := by decide
theorem test_ldStVx : stepSuch (withRegs [(6, 1)]) 0xF618 (fun t => t.st == 0 && t.tone) = true := by decide
theorem test_ldStVx_zero : stepSuch { State.reset with st := 1 } 0xF618 (fun t => t.st == 0 && t.tone == false) = true := by
  decide

/-! ### The host (40_cycle.md R114, 60_exceptions.md R231) -/

/-- 60_exceptions.md R231: the codes of the table, in its order. -/
theorem test_error_codes : [LoadError.unreadable.code, (LoadError.tooLong 4000).code] = [1, 1] ∧
    [Fault.decodeError 0 0, .stackOverflow 0, .stackUnderflow 0, .memoryBounds 0 .fetch 0, .fontWrite 0 0,
      .keyIndex 0 0].map Fault.code = [2, 3, 4, 5, 6, 7] := by decide
/-- 70_reset_and_hazards.md R252: an image of 3585 bytes stops the host with LoadError(too_long, 3585), code 1. -/
theorem test_host_load_error :
    (host (some (List.replicate 3585 0)) [⟨[], true⟩]).ended = .loadError (.tooLong 3585) := by
  have h : imageFits (List.replicate 3585 0) = false := test_wellformed_image.2
  simp only [host, construct, h, List.length_replicate, Bool.false_eq_true, if_false]
/-- 95_test_vectors.md 2.7: FX18 with V6 = 1 puts out the tone in its own step; nothing is drawn. -/
theorem test_host_tone :
    (hostLoop [⟨[], true⟩] ((withRegs [(6, 1)]).withFetchWord 16 0xF618)).signals = [.tone] := by decide
/-- 95_test_vectors.md 2.1: an empty image runs CLS, which the host draws; then it presses a key and stops. -/
theorem test_host_draw :
    (host (some []) [⟨[], true⟩, ⟨[.press 3], false⟩]).signals = [.draw FrameBuffer.blank] ∧
    (match (host (some []) [⟨[], true⟩, ⟨[.press 3], false⟩]).ended with
      | .stopped t => t.pc == 0x202 && t.keys[3] && t.frameChanged == false
      | _ => false) = true := by decide
/-- 95_test_vectors.md 2.3: a return with no pending call stops the host with its report, code 4. -/
theorem test_host_fault : (host (some [0x00, 0xEE]) [⟨[], true⟩, ⟨[], true⟩]).ended.reportCode = some 4 ∧
    (host (some [0x00, 0xEE]) [⟨[], true⟩, ⟨[], true⟩]).signals = [] := by decide

/-! ### Witnesses: for each statement with hypotheses, states and operands that meet them, at the bounds of each clause -/

/-- The reset state with I = a. -/
def atI (a : Word) : State := { State.reset with i := a }

/-- The reset state with one instruction at PC. -/
def at0 (w : Nat) : State := State.reset.withFetchWord 16 w

/-- ResetStateValues: the last font byte, the bytes beside it, the last index of each array. -/
theorem witness_ResetStateValues : 0x4F < 0x50 ∧ State.reset.mem.read 0x4F = 0x80 ∧
    State.reset.mem.read 0x50 = 0 ∧ State.reset.mem.read 0xFFF = 0 ∧ State.reset.stack[15] = 0 ∧
    State.reset.keys[15] = false := by decide
/-- ConstructLoadsImage: an empty image, and one of 3584 bytes with its last index and the addresses around it. -/
theorem witness_ConstructLoadsImage : ([] : Bytes).length ≤ 3584 ∧
    (List.replicate 3584 (1 : Byte)).length ≤ 3584 ∧ 3583 < (List.replicate 3584 (1 : Byte)).length ∧
    0x1FF < 0x200 ∧ 0x200 + (List.replicate 3584 (1 : Byte)).length ≤ 0x1000 := by
  simp only [List.length_replicate]; decide
/-- ConstructRejectsBadImage: an image that cannot be read, and the shortest one that is too long. -/
theorem witness_ConstructRejectsBadImage :
    (∀ bytes : Bytes, (none : Option Bytes) = some bytes → 3584 < bytes.length) ∧
    ∀ bytes, some (List.replicate 3585 (0 : Byte)) = some bytes → 3584 < bytes.length :=
  ⟨fun _ h => (by cases h), fun _ h => by cases h; simp only [List.length_replicate]; decide⟩
/-- FirstStepFetchesImage: the longest image. -/
theorem witness_FirstStepFetchesImage : ((0x60 : Byte) :: 0x05 :: List.replicate 3582 (0 : Byte)).length ≤ 3584 := by
  simp only [List.length_cons, List.length_replicate]; decide
/-- DecodeOfEncode: an instruction with every operand at its highest value. -/
theorem witness_DecodeOfEncode : (Instr.drw 0xF 0xF 0xF).wellFormed = true := by decide
/-- DecodeMatchesOpcodeMap: a word the decoder accepts, and a word of a row (one with ignored bits). -/
theorem witness_DecodeMatchesOpcodeMap : decode 0x8126 = .ok (.shr 1) ∧
    (0x812E : Word) &&& (opRow (.shl 0)).mask = (opRow (.shl 0)).value := by decide
/-- DecodeIgnoresUnreadBits: words of each clause with the ignored bits set. -/
theorem witness_DecodeIgnoresUnreadBits : (fieldF 0x0FF0 = 0x0 ∧ fieldN 0x0FF0 = 0x0) ∧
    (fieldF 0x0FFE = 0x0 ∧ fieldN 0x0FFE = 0xE) ∧ fieldF 0x9FFF = 0x9 ∧ (fieldF 0x80F6 = 0x8 ∧ fieldN 0x80F6 = 0x6) ∧
    (fieldF 0x80FE = 0x8 ∧ fieldN 0x80FE = 0xE) := by decide
/-- StepRunsDecodedInstruction: an instruction at the last even address. -/
theorem witness_StepRunsDecodedInstruction :
    let s := { State.reset with pc := 0xFFE }.withFetchWord 16 0x6005
    s.status = .running ∧ s.pc.toNat + 1 < 0x1000 ∧
      decodeBytes [s.mem.read s.pc.toNat, s.mem.read (s.pc.toNat + 1)] = .ok (.ldByte 0 5, []) := by decide
/-- FinishTicksProgressedSteps: a state of each clause. -/
theorem witness_FinishTicksProgressedSteps : { State.reset with outcome := .progressed }.outcome = .progressed ∧
    { State.reset with outcome := .blocked }.outcome ≠ .progressed := by decide
/-- FetchIsBigEndian: the last PC that can be fetched, and an odd one. -/
theorem witness_FetchIsBigEndian : { State.reset with pc := 0xFFE }.pc.toNat + 1 < 0x1000 ∧
    { State.reset with pc := 0xFFD }.pc.toNat + 1 < 0x1000 := by decide
/-- FetchBeyondMemoryFaults: PC = 0xFFF, and the next one. -/
theorem witness_FetchBeyondMemoryFaults :
    (State.reset.status = .running ∧ ¬ { State.reset with pc := 0xFFF }.pc.toNat + 1 < 0x1000) ∧
    ¬ { State.reset with pc := 0x1000 }.pc.toNat + 1 < 0x1000 := by decide
/-- IllegalWordRaisesDecodeError. -/
theorem witness_IllegalWordRaisesDecodeError : (at0 0x5121).status = .running ∧ (at0 0x5121).fetch = .ok 0x5121 ∧
    decode 0x5121 = .error (.illegal 0x5121) := by decide
/-- FaultedBlockHasNoStep: a state that a step reached. -/
theorem witness_FaultedBlockHasNoStep :
    nextSuch (step (at0 0x00EE)) (fun t => t.status == .faulted (.stackUnderflow 0x200)) = true := by decide
/-- RunningBlockAlwaysSteps. -/
theorem witness_RunningBlockAlwaysSteps : (at0 0x6005).status = .running := by decide
/-- BlockedStepWritesNothing. -/
theorem witness_BlockedStepWritesNothing : ∃ t, (at0 0xF20A).status = .running ∧ step (at0 0xF20A) = .next t ∧
    t.outcome = .blocked := ⟨_, rfl, rfl, rfl⟩
/-- FaultingStepWritesOnlyStatus: a return with no pending call. -/
theorem witness_FaultingStepWritesOnlyStatus : ∃ t, (at0 0x00EE).status = .running ∧ step (at0 0x00EE) = .next t ∧
    t.status = .faulted (.stackUnderflow 0x200) := ⟨_, rfl, rfl, rfl⟩
/-- ProgressedStepTicksTimers: an instruction of each clause. -/
theorem witness_ProgressedStepTicksTimers :
    ∀ p ∈ [(0xF415, Instr.ldDtVx 4), (0xF618, Instr.ldStVx 6), (0x6005, Instr.ldByte 0 5)],
      (at0 p.1).status = .running ∧ ((at0 p.1).pc.toNat + 1 < Config.memSize ∧ decode (wordOfBytes
        ((at0 p.1).mem.read (at0 p.1).pc.toNat) ((at0 p.1).mem.read ((at0 p.1).pc.toNat + 1))) = .ok p.2) ∧
      nextSuch (step (at0 p.1)) (fun t => t.outcome == .progressed) = true := by decide
/-- OnlyRandomReadsTheDraw: an instruction other than CXNN that answers a next state. -/
theorem witness_OnlyRandomReadsTheDraw : (∀ x nn, Instr.addReg 0 1 ≠ .rnd x nn) ∧
    ∃ t, exec (.addReg 0 1) State.reset = .next t := ⟨fun _ _ h => Instr.noConfusion h, _, rfl⟩

/-- A state that is not the reset one: a byte of program, a pending call, a timer. -/
def busy : State :=
  { State.reset with mem := [(0x300, 0x60)], pc := 0x300, sp := 1, stack := State.reset.stack.set 0 0x204, st := 2 }

/-- StepKeepsInvariant: a state that meets the invariant and steps. -/
theorem witness_StepKeepsInvariant : Inv busy ∧ ∃ t, step busy = .next t :=
  ⟨⟨by decide, by decide, by decide, by decide, fun _ => ⟨fun h => Status.noConfusion h, fun h => StepOutcome.noConfusion h⟩,
    fun h => Bool.noConfusion h⟩, _, rfl⟩
/-- ReachableStatesMeetInvariant: a block built, given a key and stepped. -/
theorem witness_ReachableStatesMeetInvariant : ∃ t, Reachable t ∧ t.getV 0 = 5 ∧ t.keys[3] = true :=
  ⟨_, .step _ _ (.key _ (.press 3) (.construct [0x60, 0x05] _ rfl)) rfl, by decide, by decide⟩
/-- StepKeepsFontAndKeys: a step, and the addresses beside its ranges. -/
theorem witness_StepKeepsFontAndKeys : (∃ t, step (at0 0x6005) = .next t) ∧ (0x4F < 0x50 ∨ 0x1000 ≤ 0x4F) ∧
    (0x1000 < 0x50 ∨ 0x1000 ≤ 0x1000) := ⟨⟨_, rfl⟩, by decide, by decide⟩
/-- EachPartHasItsWriters: an instruction that writes two of the parts. -/
theorem witness_EachPartHasItsWriters : ∃ t, exec (.storeRegs 0) { State.reset with i := 0x300 } = .next t ∧
    t.i = 0x301 := ⟨_, rfl, rfl⟩
/-- FlagRegisterHasItsWriters: instructions that change VF. -/
theorem witness_FlagRegisterHasItsWriters :
    nextSuch (exec (.addReg 0 1) (withRegs [(0, 0xFF), (1, 1)])) (fun t => t.getV 15 != 0) = true ∧
    nextSuch (exec (.ldByte 15 9) State.reset) (fun t => t.getV 15 != 0) = true ∧
    nextSuch (exec (.loadRegs 15) State.reset) (fun t => t.getV 15 != 0) = true := by decide
/-- StoreIsSeenByNextFetch: at the reset PC, and at the last place that two stored bytes fit. -/
theorem witness_StoreIsSeenByNextFetch :
    (State.reset.mem.wf ∧ (atI 0x202).base = (atI 0x202).pc.toNat + 2 ∧ 1 ≤ (1 : Nibble).toNat ∧
      0x50 ≤ (atI 0x202).base ∧ (atI 0x202).base + (1 : Nibble).toNat + 1 ≤ 0x1000) ∧
    ((atI 0xFFE).base = { atI 0xFFE with pc := 0xFFC }.pc.toNat + 2 ∧ 0x50 ≤ (atI 0xFFE).base ∧
      (atI 0xFFE).base + (1 : Nibble).toNat + 1 ≤ 0x1000) := by decide
/-- JumpSetsPc. -/
theorem witness_JumpSetsPc : fieldF 0x1FFF = 0x1 := by decide
/-- CallPushesItsAddress: the first entry and the last. -/
theorem witness_CallPushesItsAddress : State.reset.sp.val < 16 ∧ { State.reset with sp := 15 }.sp.val < 16 := by decide
/-- ReturnResumesAfterCall: one pending call, and sixteen. -/
theorem witness_ReturnResumesAfterCall : ({ State.reset with sp := 1 }.sp.val - 1 < 16 ∧ 0 < { State.reset with sp := 1 }.sp.val) ∧
    ({ State.reset with sp := 16 }.sp.val - 1 < 16 ∧ 0 < { State.reset with sp := 16 }.sp.val) := by decide
/-- StackBoundsFault: a full stack and an empty one. -/
theorem witness_StackBoundsFault : { State.reset with sp := 16 }.sp.val = 16 ∧ State.reset.sp.val = 0 := by decide
/-- CallThenReturn: a call, and its own next state. -/
theorem witness_CallThenReturn : ∃ t, State.reset.sp.val < 16 ∧ exec (.call 0x300) State.reset = .next t ∧ t.sp = t.sp ∧
    t.stack[0] = 0x200 := ⟨_, by decide, rfl, rfl, rfl⟩
/-- SkipOnByte: words of both families. -/
theorem witness_SkipOnByte : fieldF 0x3342 = 0x3 ∧ fieldF 0x4342 = 0x4 := by decide
/-- SkipOnRegisters: words of each clause. -/
theorem witness_SkipOnRegisters : (fieldF 0x5120 = 0x5 ∧ fieldN 0x5120 = 0x0) ∧
    (fieldF 0x512F = 0x5 ∧ fieldN 0x512F ≠ 0x0) ∧ fieldF 0x912F = 0x9 := by decide
/-- SkipOnKeyState: the last key, pressed and released. -/
theorem witness_SkipOnKeyState : ((withRegs [(5, 15)]).getV 5).toNat < 16 ∧
    (withKey 15 (withRegs [(5, 15)])).keys[15] = true ∧ (withRegs [(5, 15)]).keys[15] = false := by decide
/-- KeyIndexAboveFifteenFaults: the lowest value that names no key. -/
theorem witness_KeyIndexAboveFifteenFaults : 15 < ((withRegs [(5, 16)]).getV 5).toNat := by decide
/-- LoadAddAndCopy: words of each clause. -/
theorem witness_LoadAddAndCopy : fieldF 0x6A42 = 0x6 ∧ fieldF 0x72FF = 0x7 ∧ fieldF 0x8010 = 0x8 ∧ fieldN 0x8010 = 0x0 := by
  decide
/-- AddWithCarry, SubtractWithNoBorrow, ShiftMovesBitIntoFlag: a destination that is not VF. -/
theorem witness_AluDestination : (14 : Nibble) ≠ 15 := by decide
/-- RandomIsMasked: the mask 0. -/
theorem witness_RandomIsMasked : decode 0xC300 = .ok (.rnd 3 0) := by decide
/-- LoadIndex: words of each clause. -/
theorem witness_LoadIndex : fieldF 0xAFFF = 0xA ∧ fieldF 0xF429 = 0xF ∧ fieldNN 0xF429 = 0x29 := by decide
/-- StoreDecimalDigits: the lowest and the highest I. -/
theorem witness_StoreDecimalDigits :
    (atI 0x50).mem.wf ∧ 0x50 ≤ (atI 0x50).base ∧ (atI 0x50).base + 3 ≤ 0x1000 ∧
    0x50 ≤ (atI 0xFFD).base ∧ (atI 0xFFD).base + 3 ≤ 0x1000 := by decide
/-- StoreRegisterRun: the lowest I and, for all sixteen registers, the highest; the last register of the run. -/
theorem witness_StoreRegisterRun :
    (atI 0x50).mem.wf ∧ 0x50 ≤ (atI 0x50).base ∧ (atI 0x50).base + (15 : Nibble).toNat + 1 ≤ 0x1000 ∧
    0x50 ≤ (atI 0xFF0).base ∧ (atI 0xFF0).base + (15 : Nibble).toNat + 1 ≤ 0x1000 ∧ (15 : Nibble) ≤ 15 := by decide
/-- LoadRegisterRun: I = 0, and for all sixteen registers the highest; the last register of the run. -/
theorem witness_LoadRegisterRun :
    (atI 0).base + (15 : Nibble).toNat + 1 ≤ 0x1000 ∧ (atI 0xFF0).base + (15 : Nibble).toNat + 1 ≤ 0x1000 ∧
    (15 : Nibble) ≤ 15 := by decide
/-- StoreFaultsAtLowestAddress: FX33 whose third byte is at 0x1000, FX55 whose first byte is the last font byte. -/
theorem witness_StoreFaultsAtLowestAddress :
    ((∃ x, (Instr.ldB 0 = .ldB x ∧ 3 = 3) ∨ (Instr.ldB 0 = .storeRegs x ∧ 3 = x.toNat + 1)) ∧ 2 < 3 ∧
      (∀ j, j < 2 → 0x50 ≤ (atI 0xFFE).base + j ∧ (atI 0xFFE).base + j < 0x1000) ∧
      0x1000 ≤ (atI 0xFFE).base + 2) ∧
    ((∃ x, (Instr.storeRegs 1 = .ldB x ∧ 2 = 3) ∨ (Instr.storeRegs 1 = .storeRegs x ∧ 2 = x.toNat + 1)) ∧ 0 < 2 ∧
      (∀ j, j < 0 → 0x50 ≤ (atI 0x4F).base + j ∧ (atI 0x4F).base + j < 0x1000) ∧
      (atI 0x4F).base + 0 < 0x50) :=
  ⟨⟨⟨0, .inl ⟨rfl, rfl⟩⟩, by decide, by decide, by decide⟩, ⟨⟨1, .inr ⟨rfl, rfl⟩⟩, by decide, by decide, by decide⟩⟩
/-- ReadFaultsAtLowestAddress: FX65 whose first byte is at 0x1000, DXYN whose second row is. -/
theorem witness_ReadFaultsAtLowestAddress :
    ((∃ x, Instr.loadRegs 0 = .loadRegs x ∧ 1 = x.toNat + 1) ∧ 0 < 1 ∧
      (∀ j, j < 0 → (atI 0x1000).base + j < 0x1000) ∧ 0x1000 ≤ (atI 0x1000).base + 0) ∧
    ((∃ x y h, Instr.drw 0 1 2 = .drw x y h ∧ 2 = h.toNat) ∧ 1 < 2 ∧
      (∀ j, j < 1 → (atI 0xFFF).base + j < 0x1000) ∧ 0x1000 ≤ (atI 0xFFF).base + 1) :=
  ⟨⟨⟨0, rfl, rfl⟩, by decide, by decide, by decide⟩, ⟨⟨0, 1, 2, rfl, rfl⟩, by decide, by decide, by decide⟩⟩
/-- DrawInvertsCoveredPixels: N = 0, fifteen rows at the highest I, a covered pixel, and one that no row covers. -/
theorem witness_DrawInvertsCoveredPixels : ((0 : Nibble) = 0 ∨ (atI 0xFFFF).base + 0 ≤ 0x1000) ∧
    (atI 0xFF1).base + (15 : Nibble).toNat ≤ 0x1000 ∧ SpriteCovers State.reset 0 0 1 3 0 ∧
    ¬ SpriteCovers State.reset 0 0 1 63 31 ∧ pixel (withPixels [(3, 0)] State.reset).fb 3 0 = true :=
  ⟨by decide, by decide, ⟨0, 3, by decide, by decide, by decide, by decide, by decide⟩,
    fun ⟨r, c, hr, _, _, _, hy⟩ => by
      have h1 : r < 1 := hr
      have h2 : 31 = (0 + r) % 32 := hy
      omega, by decide⟩
/-- DrawTwiceRestores: a glyph drawn twice on a clear frame buffer, its second draw meeting VF = 0. -/
theorem witness_DrawTwiceRestores : (1 : Nibble) ≠ 15 ∧ (2 : Nibble) ≠ 15 ∧
    ∃ t u, exec (.drw 1 2 5) State.reset = .next t ∧ t.outcome = .progressed ∧ SameDraw t t 1 2 ∧
      exec (.drw 1 2 5) t = .next u ∧ ∀ px py, pixel State.reset.fb px py = false :=
  ⟨by decide, by decide, _, _, rfl, rfl, ⟨rfl, rfl, rfl, rfl, rfl⟩, rfl, pixel_blank⟩
/-- DelayTimerReadAndWrite: words of both clauses. -/
theorem witness_DelayTimerReadAndWrite : (fieldF 0xF507 = 0xF ∧ fieldNN 0xF507 = 0x07) ∧
    (fieldF 0xF415 = 0xF ∧ fieldNN 0xF415 = 0x15) := by decide
/-- WaitForKey: the last key alone pressed, and no key pressed. -/
theorem witness_WaitForKey : (withKey 15 State.reset).keys[15] = true ∧
    (∀ (j : Nat) (hj : j < 15), (withKey 15 State.reset).keys[j]'(Nat.lt_trans hj (by decide)) = false) ∧
    (∀ (k : Nat) (h : k < 16), State.reset.keys[k]'h = false) := by decide
/-- KeyEventsSetOneFlag: both events, and another key. -/
theorem witness_KeyEventsSetOneFlag : (KeyEvent.press 3 = .press 3 ∨ KeyEvent.press 3 = .release 3) ∧
    (KeyEvent.release 3 = .press 3 ∨ KeyEvent.release 3 = .release 3) ∧ 15 ≠ (3 : Nibble).toNat := by decide
/-- WaitingBlockStaysPut: an FX0A at PC of a block with no key pressed. -/
theorem witness_WaitingBlockStaysPut : (at0 0xF20A).status = .running ∧ (at0 0xF20A).runs (.ldVxK 2) ∧
    ∀ (k : Nat) (h : k < 16), (at0 0xF20A).keys[k]'h = false := ⟨by decide, ⟨by decide, by decide⟩, by decide⟩
/-- HostRound: an update that stops, one whose step is progressed, and one whose step faults. -/
theorem witness_HostRound : (⟨[.press 3], false⟩ : HostUpdate).live = false ∧ (⟨[], true⟩ : HostUpdate).live = true ∧
    (at0 0x00E0).status = .running ∧
    nextSuch (step (at0 0x00E0)) (fun t => t.status == .running && t.frameChanged) = true ∧
    nextSuch (step (at0 0x00EE)) (fun t => t.status == .faulted (.stackUnderflow 0x200)) = true := by decide
/-- HostRunsStayReachable: an image that construct rejects. -/
theorem witness_HostRunsStayReachable : construct none = .error .unreadable := by rfl
end

section
open Sys2Proof Sys2Proof.Machine

/-- Settles O12: inside memory the fetch answers the word of the two bytes at PC, and that word's high and low bytes
are the two it was made of (20_memory.md R52). -/
theorem fetchIsBigEndian : Obligations.FetchIsBigEndian := by
  unfold Obligations.FetchIsBigEndian
  intro s hpc
  exact ⟨_, s.fetch_ok hpc, wordOfBytes_high _ _, wordOfBytes_low _ _⟩

end

section
open Sys2Proof Sys2Proof.Machine

namespace Sys2Proof.Machine

/-- The end of a step keeps the outcome the instruction answered. -/
@[simp] theorem State.finish_outcome (s : State) : s.finish.outcome = s.outcome := by
  by_cases h : s.outcome = .progressed
  · rw [s.finish_progressed h, State.tick_outcome]
  · rw [s.finish_other h, State.setTone_outcome]

/-- FX0A is the only instruction that blocks: it finds no key pressed, and only the outcome changes (R109, R201). -/
theorem exec_blocked {i : Instr} {s t : State} (hx : exec i s = .next t) (hb : t.outcome = .blocked) :
    ∃ x, i = .ldVxK x ∧ s.lowestKey = none ∧ t = s.setOutcome .blocked := by
  rcases exec_cases i s with ⟨f, hf⟩ | ⟨x, hi, hk, hw⟩ | ⟨u, hu, hwent⟩
  · obtain rfl : t = s.raise f := by simpa [hx] using hf
    simp at hb
  · exact ⟨x, hi, hk, by simpa [hx] using hw⟩
  · obtain rfl : t = u := by simpa [hx] using hu
    simp [hwent.outcome] at hb

/-- A Blocked step of a running block executed an FX0A at PC with no key pressed, and ended with no tick. -/
theorem step_blocked {s t : State} (hr : s.status = .running) (hs : step s = .next t) (hb : t.outcome = .blocked) :
    ∃ x, s.runs (.ldVxK x) ∧ s.lowestKey = none ∧ t = (s.setOutcome .blocked).setTone false := by
  rcases step_running hr with ⟨-, f, hf⟩ | ⟨hpc, w, hw, ⟨e, -, hf⟩ | ⟨i, u, hd, hx, hu⟩⟩
  · obtain rfl : t = (s.raise f).finish := by simpa [hs] using hf
    simp at hb
  · obtain rfl : t = (s.raise (.decodeError w s.pc)).finish := by simpa [hs] using hf
    simp at hb
  · obtain rfl : t = u.finish := by simpa [hs] using hu
    obtain ⟨x, rfl, hk, rfl⟩ := exec_blocked hx (by simpa using hb)
    obtain rfl : _ = w := by simpa [s.fetch_ok hpc] using hw
    exact ⟨x, ⟨hpc, hd⟩, hk, State.finish_other _ (by simp)⟩

end Sys2Proof.Machine

/-- Settles O17: only FX0A with no key pressed answers Blocked, and its step writes the outputs alone, so PC and
memory, which the next fetch reads, are unchanged (40_cycle.md R109). -/
theorem blockedStepWritesNothing : Obligations.BlockedStepWritesNothing := by
  unfold Obligations.BlockedStepWritesNothing
  intro s t hr hs hb
  obtain ⟨x, hruns, hkey, rfl⟩ := step_blocked hr hs hb
  exact ⟨⟨x, hruns⟩, s.lowestKey_none.mp hkey, rfl, rfl⟩

end

section
open Sys2Proof Sys2Proof.Machine

namespace Sys2Proof

/-- A word of family 1 is a JP to its NNN (30_encoding.md R86). -/
theorem decode_family1 {w : Word} (hF : fieldF w = 0x1) : decode w = .ok (.jp (fieldNNN w)) := by
  rw [decode, hF]; rfl

namespace Machine

/-- An address immediate keeps its value as a word. -/
@[simp] theorem addrOperand_toNat (nnn : Addr12) : (addrOperand nnn).toNat = nnn.toNat :=
  BitVec.toNat_setWidth_of_le (by decide)

/-- PC and the outcome are in no footprint: an instruction that ends by writing them leaves what it left before. -/
theorem Leaves.setPc_setOutcome {p : Footprint} {s t : State} (h : Leaves p s t) (w : Word) (o : StepOutcome) :
    Leaves p s ((t.setPc w).setOutcome o) := h

/-- A state leaves everything of itself. -/
theorem Leaves.refl (p : Footprint) (s : State) : Leaves p s s := by simp [Leaves]

/-- An instruction that ends in a jump to `w` from a state `t` completes with PC at `w`, changing what `t` changed. -/
theorem completes_of_exec_jumpTo {i : Instr} {s t : State} {w : Word} {p : Footprint} {post : State → Prop}
    (hx : exec i s = t.jumpTo w) (hl : Leaves p s t) (hp : post ((t.setPc w).setOutcome .progressed)) :
    Completes i s w p post :=
  ⟨_, hx.trans (t.jumpTo_eq w), rfl, rfl, hl.setPc_setOutcome w _, hp⟩

/-- What JP executes: a jump to its operand, from the state as it is (42_control_flow.md R132). -/
theorem exec_jp (nnn : Addr12) (s : State) : exec (.jp nnn) s = s.jumpTo (addrOperand nnn) := rfl

end Machine

end Sys2Proof

/-- Settles O28: family 1 decodes to JP, and JP is one jump to NNN with nothing written before it, so its footprint is
empty (42_control_flow.md R132). -/
theorem jumpSetsPc : Obligations.JumpSetsPc := by
  unfold Obligations.JumpSetsPc
  refine ⟨fun w hF => decode_family1 hF, fun nnn s => ?_⟩
  exact completes_of_exec_jumpTo (exec_jp nnn s) (.refl _ s) (addrOperand_toNat nnn)

end

section
open Sys2Proof Sys2Proof.Machine

namespace Sys2Proof

/-! ### Decoding the families of the register skips (30_encoding.md R86, R87) -/

theorem decode_family3 {w : Word} (hF : fieldF w = 0x3) : decode w = .ok (.seByte (fieldX w) (fieldNN w)) := by
  rw [decode, hF]; rfl

theorem decode_family4 {w : Word} (hF : fieldF w = 0x4) : decode w = .ok (.sneByte (fieldX w) (fieldNN w)) := by
  rw [decode, hF]; rfl

/-- Family 5 has a second level, keyed on the low nibble (R85). -/
theorem decode_family5 {w : Word} (hF : fieldF w = 0x5) : decode w = decodeFamily5 w := by
  rw [decode, hF]; rfl

theorem decodeFamily5_zero {w : Word} (hN : fieldN w = 0x0) :
    decodeFamily5 w = .ok (.seReg (fieldX w) (fieldY w)) := by
  rw [decodeFamily5, hN]; rfl

theorem decodeFamily5_nonzero {w : Word} (hN : fieldN w ≠ 0x0) : decodeFamily5 w = .error (.illegal w) := by
  unfold decodeFamily5
  split
  · next h0 => exact absurd (BitVec.eq_of_toNat_eq h0) hN
  · rfl

theorem decode_family9 {w : Word} (hF : fieldF w = 0x9) : decode w = .ok (.sneReg (fieldX w) (fieldY w)) := by
  rw [decode, hF]; rfl

namespace Machine

/-! ### What a skip does (43_skip.md R140) -/

/-- A skip is a jump from the state as it is, past one word or two. -/
theorem State.skipIf_eq_jumpTo (s : State) (taken : Bool) :
    s.skipIf taken = s.jumpTo (s.pc + if taken then 4 else 2) := rfl

/-- An instruction that skips exactly when `P` holds adds 4 to PC if `P` and 2 otherwise, and changes nothing else. -/
theorem completes_of_exec_skipIf {i : Instr} {s : State} {taken : Bool} {P : Prop} [Decidable P] {p : Footprint}
    (hx : exec i s = s.skipIf taken) (hP : taken = true ↔ P) :
    Completes i s (s.pc + if P then 4 else 2) p (fun _ => True) := by
  have hd : (if taken then 4 else 2 : Word) = if P then 4 else 2 := if_congr hP rfl rfl
  rw [← hd]
  exact completes_of_exec_jumpTo (hx.trans (s.skipIf_eq_jumpTo taken)) (.refl p s) trivial

/-- The other way round: an instruction that skips exactly when `P` fails. -/
theorem completes_of_exec_skipIf_not {i : Instr} {s : State} {taken : Bool} {P : Prop} [Decidable P] {p : Footprint}
    (hx : exec i s = s.skipIf taken) (hP : taken = true ↔ ¬ P) :
    Completes i s (s.pc + if P then 2 else 4) p (fun _ => True) := by
  rw [← ite_not]
  exact completes_of_exec_skipIf hx hP

/-- The comparison of two bytes is one of unsigned values (R140). -/
theorem byte_beq_iff_toNat {a b : Byte} : (a == b) = true ↔ a.toNat = b.toNat :=
  beq_iff_eq.trans BitVec.toNat_inj.symm

theorem byte_bne_iff_toNat {a b : Byte} : (a != b) = true ↔ ¬ a.toNat = b.toNat :=
  bne_iff_ne.trans (not_congr BitVec.toNat_inj.symm)

/-! ### The condition each register skip tests (R141 to R144) -/

theorem exec_seByte (x : Nibble) (nn : Byte) (s : State) : exec (.seByte x nn) s = s.skipIf (s.getV x == nn) := rfl

theorem exec_sneByte (x : Nibble) (nn : Byte) (s : State) : exec (.sneByte x nn) s = s.skipIf (s.getV x != nn) := rfl

theorem exec_seReg (x y : Nibble) (s : State) : exec (.seReg x y) s = s.skipIf (s.getV x == s.getV y) := rfl

theorem exec_sneReg (x y : Nibble) (s : State) : exec (.sneReg x y) s = s.skipIf (s.getV x != s.getV y) := rfl

end Machine

end Sys2Proof

/-- Settles O34: families 3 and 4 decode to the two skips, whose conditions are the equality of V[x] and NN and its
negation (43_skip.md R141, R142). -/
theorem skipOnByte : Obligations.SkipOnByte := by
  unfold Obligations.SkipOnByte
  refine ⟨fun w hF => decode_family3 hF, fun w hF => decode_family4 hF, fun x nn s => ⟨?_, ?_⟩⟩
  · exact completes_of_exec_skipIf (exec_seByte x nn s) byte_beq_iff_toNat
  · exact completes_of_exec_skipIf_not (exec_sneByte x nn s) byte_bne_iff_toNat

/-- Settles O35: family 5 decodes to the skip on equal registers for a low nibble of 0 alone, family 9 to the skip on
differing registers for every low nibble (43_skip.md R143, R144). -/
theorem skipOnRegisters : Obligations.SkipOnRegisters := by
  unfold Obligations.SkipOnRegisters
  refine ⟨fun w hF hN => ?_, fun w hF hN => ?_, fun w hF => decode_family9 hF, fun x y s => ⟨?_, ?_⟩⟩
  · exact (decode_family5 hF).trans (decodeFamily5_zero hN)
  · exact (decode_family5 hF).trans (decodeFamily5_nonzero hN)
  · exact completes_of_exec_skipIf (exec_seReg x y s) byte_beq_iff_toNat
  · exact completes_of_exec_skipIf_not (exec_sneReg x y s) byte_bne_iff_toNat

end

section
open Sys2Proof Sys2Proof.Machine

namespace Sys2Proof

/-! ### Decoding the loads, the immediate addition and the copy (30_encoding.md R85, R86) -/

theorem decode_family6 {w : Word} (hF : fieldF w = 0x6) : decode w = .ok (.ldByte (fieldX w) (fieldNN w)) := by
  rw [decode, hF]; rfl

theorem decode_family7 {w : Word} (hF : fieldF w = 0x7) : decode w = .ok (.addByte (fieldX w) (fieldNN w)) := by
  rw [decode, hF]; rfl

/-- Family 8 has a second level, keyed on the low nibble (R85). -/
theorem decode_family8 {w : Word} (hF : fieldF w = 0x8) : decode w = decodeFamily8 w := by
  rw [decode, hF]; rfl

theorem decodeFamily8_zero {w : Word} (hN : fieldN w = 0x0) :
    decodeFamily8 w = .ok (.ldReg (fieldX w) (fieldY w)) := by
  rw [decodeFamily8, hN]; rfl

namespace Machine

/-! ### Instructions that write one register -/

/-- Writing a register in the footprint leaves everything outside the footprint. -/
theorem Leaves.setV {p : Footprint} {s : State} {x : Nibble} (b : Byte) (hx : x ∈ p.regs) :
    Leaves p s (s.setV x b) := by
  have hregs : ∀ r, r ∉ p.regs → (s.setV x b).getV r = s.getV r := fun r hr =>
    s.setV_getV_ne b fun hrx => hr (hrx ▸ hx)
  simp +contextual [Leaves, hregs]

/-- An instruction that is done in a state `t` completes with PC + 2, changing what `t` changed. -/
theorem completes_of_exec_done {i : Instr} {s t : State} {p : Footprint} {post : State → Prop}
    (hx : exec i s = t.done) (hpc : t.pc = s.pc) (hl : Leaves p s t)
    (hp : post ((t.setPc (s.pc + 2)).setOutcome .progressed)) : Completes i s (s.pc + 2) p post :=
  ⟨_, hx.trans (hpc ▸ t.done_eq), rfl, rfl, hl.setPc_setOutcome _ _, hp⟩

/-- An instruction that writes `b` to V[x] and is done changes V[x] and PC only, whatever register x is. -/
theorem completes_of_exec_setV_done {i : Instr} {s : State} {x : Nibble} {b : Byte} {P : Byte → Prop}
    (hx : exec i s = (s.setV x b).done) (hP : P b) :
    Completes i s (s.pc + 2) { regs := [x] } (fun t => P (t.getV x)) := by
  refine completes_of_exec_done hx rfl (.setV b (List.mem_singleton_self x)) ?_
  rwa [State.setOutcome_getV, State.setPc_getV, State.setV_getV_same]

/-! ### The byte each of them writes (R152 to R154) -/

theorem exec_ldByte (x : Nibble) (nn : Byte) (s : State) : exec (.ldByte x nn) s = (s.setV x nn).done := rfl

theorem exec_addByte (x : Nibble) (nn : Byte) (s : State) :
    exec (.addByte x nn) s = (s.setV x (s.getV x + nn)).done := rfl

theorem exec_ldReg (x y : Nibble) (s : State) : exec (.ldReg x y) s = (s.setV x (s.getV y)).done := rfl

end Machine

end Sys2Proof

/-- Settles O38: families 6, 7 and 8 with low nibble 0 decode to the three instructions, each of which writes one byte
to V[x] and nothing else: NN, the sum as bytes (modulo 256, no flag), or V[y] (44_alu.md R152, R153, R154). -/
theorem loadAddAndCopy : Obligations.LoadAddAndCopy := by
  unfold Obligations.LoadAddAndCopy
  refine ⟨fun w hF => decode_family6 hF, fun w hF => decode_family7 hF, fun w hF hN => ?_,
    fun x nn s => ⟨?_, ?_⟩, fun x y s => ?_⟩
  · exact (decode_family8 hF).trans (decodeFamily8_zero hN)
  · exact completes_of_exec_setV_done (P := (· = nn)) (exec_ldByte x nn s) rfl
  · exact completes_of_exec_setV_done (P := fun b => b.toNat = ((s.getV x).toNat + nn.toNat) % 256)
      (exec_addByte x nn s) (BitVec.toNat_add _ _)
  · exact completes_of_exec_setV_done (P := (· = s.getV y)) (exec_ldReg x y s) rfl

end

section
open Sys2Proof Sys2Proof.Machine

namespace Sys2Proof

/-! ### Decoding the loads of I (30_encoding.md R85, R86) -/

theorem decode_familyA {w : Word} (hF : fieldF w = 0xA) : decode w = .ok (.ldI (fieldNNN w)) := by
  rw [decode, hF]; rfl

/-- Family F has a second level, keyed on the low byte (R85). -/
theorem decode_familyF {w : Word} (hF : fieldF w = 0xF) : decode w = decodeFamilyF w := by
  rw [decode, hF]; rfl

theorem decodeFamilyF_ldF {w : Word} (hNN : fieldNN w = 0x29) : decodeFamilyF w = .ok (.ldF (fieldX w)) := by
  rw [decodeFamilyF, hNN]; rfl

namespace Machine

/-! ### Instructions that write I -/

/-- Writing I leaves everything outside a footprint that holds I. -/
theorem Leaves.setI {p : Footprint} (s : State) (w : Word) (hi : p.index = true) : Leaves p s (s.setI w) := by
  simp [Leaves, hi]

/-- An instruction that writes `w` to I and is done changes I and PC only. -/
theorem completes_of_exec_setI_done {i : Instr} {s : State} {w : Word} {P : Word → Prop}
    (hx : exec i s = (s.setI w).done) (hP : P w) :
    Completes i s (s.pc + 2) { index := true } (fun t => P t.i) :=
  completes_of_exec_done hx rfl (.setI s w rfl) hP

/-- A widened byte keeps its value. -/
@[simp] theorem wide_toNat (b : Byte) : (wide b).toNat = b.toNat := BitVec.toNat_setWidth_of_le (by decide)

/-- Five times a byte fits in a word, so the glyph address of any byte is the exact product (R182). -/
theorem wide_mul_five_toNat (b : Byte) : (wide b * 5).toNat = b.toNat * 5 := by
  have hfits : b.toNat * 5 < 2 ^ 16 := by have := b.isLt; omega
  calc (wide b * 5).toNat = b.toNat * 5 % 2 ^ 16 := by rw [BitVec.toNat_mul, wide_toNat]; rfl
    _ = b.toNat * 5 := Nat.mod_eq_of_lt hfits

/-! ### The word each of them writes (R180, R182) -/

theorem exec_ldI (nnn : Addr12) (s : State) : exec (.ldI nnn) s = (s.setI (addrOperand nnn)).done := rfl

theorem exec_ldF (x : Nibble) (s : State) : exec (.ldF x) s = (s.setI (wide (s.getV x) * 5)).done := rfl

end Machine

end Sys2Proof

/-- Settles O44: family A, and family F with low byte 0x29, decode to the two instructions, each of which writes one
word to I and nothing else: NNN, or the product V[x] times 5, which never wraps (45_index_memory.md R180, R182). -/
theorem loadIndex : Obligations.LoadIndex := by
  unfold Obligations.LoadIndex
  refine ⟨fun w hF => decode_familyA hF, fun w hF hNN => ?_, fun nnn s => ?_, fun x s => ?_⟩
  · exact (decode_familyF hF).trans (decodeFamilyF_ldF hNN)
  · exact completes_of_exec_setI_done (P := fun i => i.toNat = nnn.toNat) (exec_ldI nnn s) (addrOperand_toNat nnn)
  · exact completes_of_exec_setI_done (P := fun i => i.toNat = (s.getV x).toNat * 5) (exec_ldF x s)
      (wide_mul_five_toNat _)

end

section
open Sys2Proof Sys2Proof.Machine

namespace Sys2Proof

/-! ### Decoding the instructions of the delay timer (30_encoding.md R85, R86) -/

theorem decodeFamilyF_ldVxDt {w : Word} (hNN : fieldNN w = 0x07) : decodeFamilyF w = .ok (.ldVxDt (fieldX w)) := by
  rw [decodeFamilyF, hNN]; rfl

theorem decodeFamilyF_ldDtVx {w : Word} (hNN : fieldNN w = 0x15) : decodeFamilyF w = .ok (.ldDtVx (fieldX w)) := by
  rw [decodeFamilyF, hNN]; rfl

namespace Machine

/-! ### The timer tick at the end of a step (40_cycle.md R107) -/

/-- A tick takes one from a timer and stops at zero: it never wraps. -/
theorem tickDown_toNat (d : Byte) : (tickDown d).toNat = d.toNat - 1 := by
  unfold tickDown
  split
  · next hzero => subst hzero; rfl
  · next hpos =>
    have hone : 1 ≤ d := by bv_omega
    exact BitVec.toNat_sub_of_le hone

/-- A step that progressed ends with DT one lower, or still zero. -/
theorem State.finish_dt_toNat {s : State} (h : s.outcome = .progressed) : s.finish.dt.toNat = s.dt.toNat - 1 := by
  rw [s.finish_progressed h, State.tick_dt, tickDown_toNat]

/-- The end of a step writes no general register. -/
@[simp] theorem State.finish_getV (s : State) (q : Nibble) : s.finish.getV q = s.getV q := by
  by_cases h : s.outcome = .progressed
  · rw [s.finish_progressed h, State.tick_getV]
  · rw [s.finish_other h, State.setTone_getV]

/-! ### What FX07 and FX15 write (46_timers_keys.md R200, R203) -/

/-- Writing DT leaves everything outside a footprint that holds DT. -/
theorem Leaves.setDt {p : Footprint} (s : State) (b : Byte) (hd : p.delay = true) : Leaves p s (s.setDt b) := by
  simp [Leaves, hd]

theorem exec_ldVxDt (x : Nibble) (s : State) : exec (.ldVxDt x) s = (s.setV x s.dt).done := rfl

theorem exec_ldDtVx (x : Nibble) (s : State) : exec (.ldDtVx x) s = (s.setDt (s.getV x)).done := rfl

end Machine

end Sys2Proof

/-- Settles O54: FX07 writes to V[x] the DT it finds and FX15 writes V[x] to DT; each progresses, so the tick that ends
its step comes after that write and decrements DT, leaving V[x] as it is (46_timers_keys.md R200, R203). -/
theorem delayTimerReadAndWrite : Obligations.DelayTimerReadAndWrite := by
  unfold Obligations.DelayTimerReadAndWrite
  refine ⟨fun w hF hNN => ?_, fun w hF hNN => ?_, fun x s => ⟨?_, ?_⟩⟩
  · exact (decode_familyF hF).trans (decodeFamilyF_ldVxDt hNN)
  · exact (decode_familyF hF).trans (decodeFamilyF_ldDtVx hNN)
  · refine completes_of_exec_done (exec_ldVxDt x s) rfl (.setV s.dt (List.mem_singleton_self x)) ?_
    have hread : (((s.setV x s.dt).setPc (s.pc + 2)).setOutcome .progressed).getV x = s.dt := s.setV_getV_same x s.dt
    exact ⟨hread, (State.finish_getV _ x).trans hread, State.finish_dt_toNat rfl⟩
  · exact completes_of_exec_done (exec_ldDtVx x s) rfl (.setDt s (s.getV x) rfl) ⟨rfl, State.finish_dt_toNat rfl⟩

end

section
open Sys2Proof Sys2Proof.Machine

namespace Sys2Proof

/-! ### What a masked word says of its fields (30_encoding.md R86) -/

theorem fieldF_of_mask_family {w v : Word} (h : w &&& 0xF000 = v) : fieldF w = v.extractLsb' 12 4 := by
  rw [← h, mask_family]
  exact (fieldF_wordA _ _).symm

theorem fields_of_mask_nibble {w v : Word} (h : w &&& 0xF00F = v) :
    fieldF w = v.extractLsb' 12 4 ∧ fieldN w = v.extractLsb' 0 4 := by
  rw [← h, mask_nibble]
  exact ⟨(fieldF_wordXYN _ _ _ _).symm, (fieldN_wordXYN _ _ _ _).symm⟩

theorem fields_of_mask_byte {w v : Word} (h : w &&& 0xF0FF = v) :
    fieldF w = v.extractLsb' 12 4 ∧ fieldNN w = v.extractLsb' 0 8 := by
  rw [← h, mask_byte]
  exact ⟨(fieldF_wordXB _ _ _).symm, (fieldNN_wordXB _ _ _).symm⟩

/-! ### The families with a second level (R85) -/

theorem decode_family0 {w : Word} (hF : fieldF w = 0x0) : decode w = decodeFamily0 w := by
  rw [decode, hF]; rfl

theorem decode_familyE {w : Word} (hF : fieldF w = 0xE) : decode w = decodeFamilyE w := by
  rw [decode, hF]; rfl

/-! ### The instruction of each row, with the operands a word gives it (R81, R86) -/

/-- The instruction of the row of `i` whose operands are the fields of `w`. -/
def Instr.withFields (w : Word) : Instr → Instr
  | .cls => .cls
  | .ret => .ret
  | .jp _ => .jp (fieldNNN w)
  | .call _ => .call (fieldNNN w)
  | .seByte _ _ => .seByte (fieldX w) (fieldNN w)
  | .sneByte _ _ => .sneByte (fieldX w) (fieldNN w)
  | .seReg _ _ => .seReg (fieldX w) (fieldY w)
  | .ldByte _ _ => .ldByte (fieldX w) (fieldNN w)
  | .addByte _ _ => .addByte (fieldX w) (fieldNN w)
  | .ldReg _ _ => .ldReg (fieldX w) (fieldY w)
  | .orReg _ _ => .orReg (fieldX w) (fieldY w)
  | .andReg _ _ => .andReg (fieldX w) (fieldY w)
  | .xorReg _ _ => .xorReg (fieldX w) (fieldY w)
  | .addReg _ _ => .addReg (fieldX w) (fieldY w)
  | .subReg _ _ => .subReg (fieldX w) (fieldY w)
  | .shr _ => .shr (fieldX w)
  | .subnReg _ _ => .subnReg (fieldX w) (fieldY w)
  | .shl _ => .shl (fieldX w)
  | .sneReg _ _ => .sneReg (fieldX w) (fieldY w)
  | .ldI _ => .ldI (fieldNNN w)
  | .jpV0 _ => .jpV0 (fieldNNN w)
  | .rnd _ _ => .rnd (fieldX w) (fieldNN w)
  | .drw _ _ _ => .drw (fieldX w) (fieldY w) (fieldN w)
  | .skp _ => .skp (fieldX w)
  | .sknp _ => .sknp (fieldX w)
  | .ldVxDt _ => .ldVxDt (fieldX w)
  | .ldVxK _ => .ldVxK (fieldX w)
  | .ldDtVx _ => .ldDtVx (fieldX w)
  | .ldStVx _ => .ldStVx (fieldX w)
  | .addI _ => .addI (fieldX w)
  | .ldF _ => .ldF (fieldX w)
  | .ldB _ => .ldB (fieldX w)
  | .storeRegs _ => .storeRegs (fieldX w)
  | .loadRegs _ => .loadRegs (fieldX w)

@[simp] theorem opRow_withFields (w : Word) (i : Instr) : opRow (i.withFields w) = opRow i := by
  cases i <;> rfl

/-- A word of a row of the opcode map decodes to the instruction of that row with the word's fields as operands. -/
theorem decode_of_row {w : Word} {i : Instr} (h : w &&& (opRow i).mask = (opRow i).value) :
    decode w = .ok (i.withFields w) := by
  cases i with
  | jp | call | seByte | sneByte | ldByte | addByte | sneReg | ldI | jpV0 | rnd | drw =>
    have hF := fieldF_of_mask_family h
    simp only [opRow, BitVec.reduceExtractLsb'] at hF
    rw [decode, hF]; rfl
  | cls | ret =>
    obtain ⟨hF, hN⟩ := fields_of_mask_nibble h
    simp only [opRow, BitVec.reduceExtractLsb'] at hF hN
    rw [decode_family0 hF, decodeFamily0, hN]; rfl
  | seReg =>
    obtain ⟨hF, hN⟩ := fields_of_mask_nibble h
    simp only [opRow, BitVec.reduceExtractLsb'] at hF hN
    rw [decode_family5 hF, decodeFamily5, hN]; rfl
  | ldReg | orReg | andReg | xorReg | addReg | subReg | shr | subnReg | shl =>
    obtain ⟨hF, hN⟩ := fields_of_mask_nibble h
    simp only [opRow, BitVec.reduceExtractLsb'] at hF hN
    rw [decode_family8 hF, decodeFamily8, hN]; rfl
  | skp | sknp =>
    obtain ⟨hF, hNN⟩ := fields_of_mask_byte h
    simp only [opRow, BitVec.reduceExtractLsb'] at hF hNN
    rw [decode_familyE hF, decodeFamilyE, hNN]; rfl
  | ldVxDt | ldVxK | ldDtVx | ldStVx | addI | ldF | ldB | storeRegs | loadRegs =>
    obtain ⟨hF, hNN⟩ := fields_of_mask_byte h
    simp only [opRow, BitVec.reduceExtractLsb'] at hF hNN
    rw [decode_familyF hF, decodeFamilyF, hNN]; rfl

/-- The fields of an instruction's canonical word are its operands (R82, R92). -/
theorem withFields_encode (i : Instr) : i.withFields (encode i) = i := by
  cases i <;>
    simp [Instr.withFields, encode, fieldNNN_wordA, fieldX_wordXB, fieldNN_wordXB, fieldX_wordXYN, fieldY_wordXYN,
      fieldN_wordXYN]

/-- The canonical word of an instruction belongs to the instruction's row: the per-instruction laws, together. -/
theorem encode_holds_row (i : Instr) : (opRow i).holds (encode i) = true := by
  open Laws.EncodedRow in
  cases i
  exacts [cls, ret, jp _, call _, seByte _ _, sneByte _ _, seReg _ _, ldByte _ _, addByte _ _, ldReg _ _, orReg _ _,
    andReg _ _, xorReg _ _, addReg _ _, subReg _ _, shr _, subnReg _ _, shl _, sneReg _ _, ldI _, jpV0 _, rnd _ _,
    drw _ _ _, skp _, sknp _, ldVxDt _, ldVxK _, ldDtVx _, ldStVx _, addI _, ldF _, ldB _, storeRegs _, loadRegs _]

theorem decode_encode (i : Instr) : decode (encode i) = .ok i := by
  have hrow : encode i &&& (opRow i).mask = (opRow i).value := beq_iff_eq.mp (encode_holds_row i)
  rw [decode_of_row hrow, withFields_encode]

/-- The two bytes of an instruction in memory order decode to it, with no byte left. -/
theorem decodeBytes_encodeBytes (i : Instr) : decodeBytes (encodeBytes i) = .ok (i, []) := by
  rw [encodeBytes, decodeBytes, wordOfBytes_bytes, decode_encode]

end Sys2Proof

/-- Settles O5: the canonical word lies in its instruction's row, a word of a row decodes to the instruction of the row
with the word's fields as operands, and the fields of the canonical word are the operands it was built from. -/
theorem decodeOfEncode : Obligations.DecodeOfEncode := by
  unfold Obligations.DecodeOfEncode
  exact fun i _ => ⟨decode_encode i, decodeBytes_encodeBytes i⟩

end

section
open Sys2Proof Sys2Proof.Machine

namespace Sys2Proof

/-! ### Masks from fields (30_encoding.md R86) -/

theorem mask_family_of_field {w : Word} {f : Nat} (hF : (fieldF w).toNat = f) :
    w &&& 0xF000 = wordA (BitVec.ofNat 4 f) 0 := by
  rw [mask_family, ← hF, BitVec.ofNat_toNat, BitVec.setWidth_eq]

theorem mask_nibble_of_fields {w : Word} {f n : Nat} (hF : (fieldF w).toNat = f) (hN : (fieldN w).toNat = n) :
    w &&& 0xF00F = wordXYN (BitVec.ofNat 4 f) 0 0 (BitVec.ofNat 4 n) := by
  rw [mask_nibble, ← hF, ← hN]; simp

theorem mask_byte_of_fields {w : Word} {f nn : Nat} (hF : (fieldF w).toNat = f) (hNN : (fieldNN w).toNat = nn) :
    w &&& 0xF0FF = wordXB (BitVec.ofNat 4 f) 0 (BitVec.ofNat 8 nn) := by
  rw [mask_byte, ← hF, ← hNN]; simp

/-! ### The rows of the instructions each second-level table gives -/

theorem row_of_decodeFamily0 {w : Word} {i : Instr} (hF : (fieldF w).toNat = 0x0) (h : decodeFamily0 w = .ok i) :
    w &&& (opRow i).mask = (opRow i).value := by
  unfold decodeFamily0 at h
  split at h <;> cases h
  all_goals next hN => exact mask_nibble_of_fields hF hN

theorem row_of_decodeFamily5 {w : Word} {i : Instr} (hF : (fieldF w).toNat = 0x5) (h : decodeFamily5 w = .ok i) :
    w &&& (opRow i).mask = (opRow i).value := by
  unfold decodeFamily5 at h
  split at h <;> cases h
  all_goals next hN => exact mask_nibble_of_fields hF hN

theorem row_of_decodeFamily8 {w : Word} {i : Instr} (hF : (fieldF w).toNat = 0x8) (h : decodeFamily8 w = .ok i) :
    w &&& (opRow i).mask = (opRow i).value := by
  unfold decodeFamily8 at h
  split at h <;> cases h
  all_goals next hN => exact mask_nibble_of_fields hF hN

theorem row_of_decodeFamilyE {w : Word} {i : Instr} (hF : (fieldF w).toNat = 0xE) (h : decodeFamilyE w = .ok i) :
    w &&& (opRow i).mask = (opRow i).value := by
  unfold decodeFamilyE at h
  split at h <;> cases h
  all_goals next hNN => exact mask_byte_of_fields hF hNN

theorem row_of_decodeFamilyF {w : Word} {i : Instr} (hF : (fieldF w).toNat = 0xF) (h : decodeFamilyF w = .ok i) :
    w &&& (opRow i).mask = (opRow i).value := by
  unfold decodeFamilyF at h
  split at h <;> cases h
  all_goals next hNN => exact mask_byte_of_fields hF hNN

/-- A word decodes to an instruction of its own row only. -/
theorem row_of_decode {w : Word} {i : Instr} (h : decode w = .ok i) : w &&& (opRow i).mask = (opRow i).value := by
  unfold decode at h
  split at h
  case h_1 hF => exact row_of_decodeFamily0 hF h
  case h_6 hF => exact row_of_decodeFamily5 hF h
  case h_9 hF => exact row_of_decodeFamily8 hF h
  case h_15 hF => exact row_of_decodeFamilyE hF h
  case h_16 hF => exact row_of_decodeFamilyF hF h
  all_goals cases h
  all_goals next hF => exact mask_family_of_field hF

theorem opRow_mem_opcodeMap (i : Instr) : opRow i ∈ opcodeMap := by
  cases i <;> simp [opcodeMap, rowSamples, opRow]

/-- Two rows whose values differ where both masks look have no word in common. -/
theorem no_common_word {p q : OpRow} (h : p.value &&& q.mask ≠ q.value &&& p.mask) (w : Word) :
    ¬ (w &&& p.mask = p.value ∧ w &&& q.mask = q.value) := by
  rintro ⟨hp, hq⟩
  apply h
  calc p.value &&& q.mask = w &&& p.mask &&& q.mask := by rw [hp]
    _ = w &&& q.mask &&& p.mask := by rw [BitVec.and_assoc, BitVec.and_comm p.mask, BitVec.and_assoc]
    _ = q.value &&& p.mask := by rw [hq]

/-- In every two rows of the opcode map the values differ where both masks look. -/
theorem opcodeMap_values_differ :
    opcodeMap.Pairwise fun p q => p.value &&& q.mask ≠ q.value &&& p.mask := by decide

end Sys2Proof

/-- Settles O6: the 34 rows are told apart by bits both masks look at, and the decoder and the rows agree in both
directions (30_encoding.md R86). -/
theorem decodeMatchesOpcodeMap : Obligations.DecodeMatchesOpcodeMap := by
  unfold Obligations.DecodeMatchesOpcodeMap
  refine ⟨rfl, opcodeMap_values_differ.imp no_common_word, fun w i hd => ?_, fun w i hrow => ?_⟩
  · exact ⟨opRow_mem_opcodeMap i, row_of_decode hd⟩
  · exact ⟨i.withFields w, decode_of_row hrow, opRow_withFields w i⟩

end

section
open Sys2Proof Sys2Proof.Machine

namespace Sys2Proof

/-! ### The sub-keys each second-level table refuses, compared as numbers (30_encoding.md R85, R87) -/

theorem decodeFamily0_illegal {w : Word} :
    decodeFamily0 w = .error (.illegal w) ↔ fieldN w ∉ [0x0, 0xE] := by
  unfold decodeFamily0
  simp only [List.mem_cons, List.not_mem_nil, ← BitVec.toNat_inj]
  split <;> grind

theorem decodeFamily5_illegal {w : Word} :
    decodeFamily5 w = .error (.illegal w) ↔ fieldN w ≠ 0x0 := by
  unfold decodeFamily5
  simp only [ne_eq, ← BitVec.toNat_inj]
  split <;> grind

theorem decodeFamily8_illegal {w : Word} :
    decodeFamily8 w = .error (.illegal w) ↔ fieldN w ∈ [0x8, 0x9, 0xA, 0xB, 0xC, 0xD, 0xF] := by
  have hN := (fieldN w).isLt
  unfold decodeFamily8
  simp only [List.mem_cons, List.not_mem_nil, ← BitVec.toNat_inj]
  split <;> grind

theorem decodeFamilyE_illegal {w : Word} :
    decodeFamilyE w = .error (.illegal w) ↔ fieldNN w ∉ [0x9E, 0xA1] := by
  unfold decodeFamilyE
  simp only [List.mem_cons, List.not_mem_nil, ← BitVec.toNat_inj]
  split <;> grind

theorem decodeFamilyF_illegal {w : Word} :
    decodeFamilyF w = .error (.illegal w) ↔ fieldNN w ∉ [0x07, 0x0A, 0x15, 0x18, 0x1E, 0x29, 0x33, 0x55, 0x65] := by
  unfold decodeFamilyF
  simp only [List.mem_cons, List.not_mem_nil, ← BitVec.toNat_inj]
  split <;> grind

end Sys2Proof

/-- Settles O8: only the five families with a second level hold illegal words, and each refuses exactly the sub-keys
its table does not list (30_encoding.md section 4). -/
theorem illegalWordsExactly : Obligations.IllegalWordsExactly := by
  unfold Obligations.IllegalWordsExactly
  intro w
  unfold decode
  split
  case h_1 hF => simp [decodeFamily0_illegal, ← BitVec.toNat_inj (x := fieldF w), hF]
  case h_6 hF => simp [decodeFamily5_illegal, ← BitVec.toNat_inj (x := fieldF w), hF]
  case h_9 hF => simp [decodeFamily8_illegal, ← BitVec.toNat_inj (x := fieldF w), hF]
  case h_15 hF => simp [decodeFamilyE_illegal, ← BitVec.toNat_inj (x := fieldF w), hF]
  case h_16 hF => simp [decodeFamilyF_illegal, ← BitVec.toNat_inj (x := fieldF w), hF]
  case h_17 => have := (fieldF w).isLt; grind
  all_goals next hF => simp [← BitVec.toNat_inj (x := fieldF w), hF]

end

section
open Sys2Proof Sys2Proof.Machine

namespace Sys2Proof

theorem decodeFamily0_cls {w : Word} (hN : fieldN w = 0x0) : decodeFamily0 w = .ok .cls := by
  rw [decodeFamily0, hN]; rfl

theorem decodeFamily0_ret {w : Word} (hN : fieldN w = 0xE) : decodeFamily0 w = .ok .ret := by
  rw [decodeFamily0, hN]; rfl

theorem decodeFamily8_shr {w : Word} (hN : fieldN w = 0x6) : decodeFamily8 w = .ok (.shr (fieldX w)) := by
  rw [decodeFamily8, hN]; rfl

theorem decodeFamily8_shl {w : Word} (hN : fieldN w = 0xE) : decodeFamily8 w = .ok (.shl (fieldX w)) := by
  rw [decodeFamily8, hN]; rfl

end Sys2Proof

/-- Settles O7: family 0 is keyed on the low nibble alone, family 9 on nothing below X and Y, and the shifts on the low
nibble with X their only operand (30_encoding.md R84; decision D13). -/
theorem decodeIgnoresUnreadBits : Obligations.DecodeIgnoresUnreadBits := by
  unfold Obligations.DecodeIgnoresUnreadBits
  refine ⟨fun w hF hN => ?_, fun w hF hN => ?_, fun w hF => decode_family9 hF, fun w hF hN => ?_, fun w hF hN => ?_⟩
  · exact (decode_family0 hF).trans (decodeFamily0_cls hN)
  · exact (decode_family0 hF).trans (decodeFamily0_ret hN)
  · exact (decode_family8 hF).trans (decodeFamily8_shr hN)
  · exact (decode_family8 hF).trans (decodeFamily8_shl hN)

/-- Settles O9: the decoder, run on eighteen words. -/
theorem sampleWordsDecode : Obligations.SampleWordsDecode := by
  unfold Obligations.SampleWordsDecode
  decide

end

section
open Sys2Proof Sys2Proof.Machine

namespace Sys2Proof.Machine

/-- The one answer of a step: two next states of one state are the same. -/
theorem next_inj {r : Result} {t u : State} (ht : r = .next t) (hu : r = .next u) : t = u :=
  Host.Outcome.next.inj (ht.symm.trans hu)

/-- The instruction at PC is the one the decoder makes of the fetched word. -/
theorem State.runs_of_fetch {s : State} {w : Word} {i : Instr} (hpc : s.pc.toNat + 1 < Config.memSize)
    (hw : s.fetch = .ok w) (hd : decode w = .ok i) : s.runs i := by
  obtain rfl : _ = w := Except.ok.inj ((s.fetch_ok hpc).symm.trans hw)
  exact ⟨hpc, hd⟩

/-- The end of a step that raised a fault: no tone, no tick. -/
theorem State.raise_finish (s : State) (f : Fault) : (s.raise f).finish = (s.raise f).setTone false :=
  State.finish_other _ (by simp)

/-- Every step of a running block raises a fault, or blocks at an FX0A, or completes the instruction at PC and ticks. -/
theorem step_cases {s t : State} (hr : s.status = .running) (hs : step s = .next t) :
    (∃ f, t = (s.raise f).setTone false) ∨
    (∃ x, s.runs (.ldVxK x) ∧ s.lowestKey = none ∧ t = (s.setOutcome .blocked).setTone false) ∨
    (∃ i u, s.runs i ∧ exec i s = .next u ∧ Went s u ∧ t = u.tick) := by
  rcases step_running hr with ⟨-, f, hf⟩ | ⟨hpc, w, hw, ⟨e, -, hf⟩ | ⟨i, u, hd, hx, hu⟩⟩
  · exact .inl ⟨f, (next_inj hs hf).trans (s.raise_finish f)⟩
  · exact .inl ⟨_, (next_inj hs hf).trans (s.raise_finish _)⟩
  · obtain rfl := next_inj hs hu
    have hruns := State.runs_of_fetch hpc hw hd
    rcases exec_cases i s with ⟨f, hf⟩ | ⟨x, rfl, hk, hb⟩ | ⟨u', hu', hwent⟩
    · obtain rfl := next_inj hx hf
      exact .inl ⟨f, s.raise_finish f⟩
    · obtain rfl := next_inj hx hb
      exact .inr (.inl ⟨x, hruns, hk, State.finish_other _ (by simp)⟩)
    · obtain rfl := next_inj hx hu'
      exact .inr (.inr ⟨i, u, hruns, hx, hwent, u.finish_progressed hwent.outcome⟩)

/-- A block that steps was running. -/
theorem running_of_step {s t : State} (hs : step s = .next t) : s.status = .running := by
  cases hst : s.status with
  | running => rfl
  | faulted f => rw [step_faulted hst] at hs; cases hs

/-! ### What a completed instruction does to the parts the invariant speaks of -/

/-- Stores go to addresses between the font and the end of memory only (20_memory.md R57). -/
theorem Went.read_outside {s t : State} (h : Went s t) {a : Nat} (ha : a < Config.fontSize ∨ Config.memSize ≤ a) :
    t.mem.read a = s.mem.read a := by
  rcases h.mem with hm | ⟨bs, hlo, hhi, hm⟩
  · rw [hm]
  · rw [hm, Memory.read_storeBytes_outside (by omega)]

theorem Went.mem_wf {s t : State} (h : Went s t) (hwf : s.mem.wf) : t.mem.wf := by
  rcases h.mem with hm | ⟨bs, -, hhi, hm⟩
  · rwa [hm]
  · rw [hm]; exact Memory.storeBytes_wf hwf hhi

/-- The highest PC is BNNN's with the greatest NNN and V0 (42_control_flow.md R134). -/
theorem Went.pc_le {s t : State} (h : Went s t) (hpc : s.pc.toNat + 1 < Config.memSize)
    (hentries : ∀ (k : Nat) (h : k < 16), (s.stack[k]'h).toNat ≤ 0xFFE) : t.pc.toNat ≤ 0x10FE := by
  simp only [Config.memSize] at hpc
  rcases h.pc with hp | hp | ⟨nnn, hp⟩ | ⟨nnn, b, hp⟩ | ⟨k, hk, hp⟩
  · rw [hp]; bv_omega
  · rw [hp]; bv_omega
  · rw [hp, addrOperand_toNat]; omega
  · rw [hp, BitVec.toNat_add, addrOperand_toNat, wide_toNat]; omega
  · have := hentries k hk
    rw [hp]; bv_omega

theorem Went.stack_le {s t : State} (h : Went s t) (hpc : s.pc.toNat + 1 < Config.memSize)
    (hentries : ∀ (k : Nat) (h : k < 16), (s.stack[k]'h).toNat ≤ 0xFFE) (k : Nat) (hk : k < 16) :
    (t.stack[k]'hk).toNat ≤ 0xFFE := by
  rcases h.stack k hk with he | he
  · rw [he]; exact hentries k hk
  · rw [he]; simp only [Config.memSize] at hpc; omega

/-! ### The three kinds of step keep the invariant -/

/-- Writing the outputs and the status in agreement, with no tone, keeps the invariant. -/
theorem Inv.of_same {s t : State} (h : Inv s) (hm : t.mem = s.mem) (hpc : t.pc = s.pc) (hst : t.stack = s.stack)
    (hf : ∀ f, t.status = .faulted f ↔ t.outcome = .fault f) (htone : t.tone = false) : Inv t where
  memory := hm ▸ h.memory
  font := hm ▸ h.font
  pc := hpc ▸ h.pc
  entries := hst ▸ h.entries
  faulted := hf
  tone := by simp [htone]

/-- The tick finds ST = 1 when it puts out a tone, and leaves it 0 (40_cycle.md R108). -/
theorem State.tick_tone_st {s : State} (h : s.tick.tone = true) : s.tick.st = 0 := by
  rw [State.tick_tone, beq_iff_eq] at h
  rw [State.tick_st, h]
  rfl

theorem Inv.tick_of_went {s t : State} (h : Inv s) (hpc : s.pc.toNat + 1 < Config.memSize)
    (hr : s.status = .running) (hw : Went s t) : Inv t.tick where
  memory := hw.mem_wf h.memory
  font a ha := (hw.read_outside (.inl ha)).trans (h.font a ha)
  pc := hw.pc_le hpc h.entries
  entries := hw.stack_le hpc h.entries
  faulted f := by simp [hw.status, hw.outcome, hr]
  tone htone := ⟨hw.outcome, State.tick_tone_st htone⟩

end Sys2Proof.Machine

/-- Settles O22: a fault and a block write the outputs and the status alone, and a completed instruction stores above
the font only, sets PC from a fetched address, an immediate or an entry, and pushes a fetched address only. -/
theorem stepKeepsInvariant : Obligations.StepKeepsInvariant := by
  unfold Obligations.StepKeepsInvariant
  intro s t hinv hs
  have hr := running_of_step hs
  rcases step_cases hr hs with ⟨f, rfl⟩ | ⟨x, -, -, rfl⟩ | ⟨i, u, hruns, -, hwent, rfl⟩
  · exact hinv.of_same rfl rfl rfl (fun g => by simp) rfl
  · exact hinv.of_same rfl rfl rfl (fun g => by simp [hr]) rfl
  · exact hinv.tick_of_went hruns.1 hr hwent

end

section
open Sys2Proof Sys2Proof.Machine

namespace Sys2Proof.Machine

/-! ### One step, from its fetch (40_cycle.md R100) -/

/-- Every instruction answers a next state. -/
theorem exec_next (i : Instr) (s : State) : ∃ t, exec i s = .next t := by
  rcases exec_cases i s with ⟨f, hx⟩ | ⟨x, -, -, hx⟩ | ⟨t, hx, -⟩ <;> exact ⟨_, hx⟩

theorem step_of_runs {s t : State} {i : Instr} (hr : s.status = .running) (hruns : s.runs i)
    (hx : exec i s = .next t) : step s = .next t.finish := by
  obtain ⟨hpc, hd⟩ := hruns
  simp only [step, hr, s.fetch_ok hpc, hd, hx]

theorem step_of_fetch_error {s : State} {f : Fault} (hr : s.status = .running) (hw : s.fetch = .error f) :
    step s = .next ((s.raise f).setTone false) := by
  simp only [step, hr, hw, State.raise_finish]

theorem step_of_decode_error {s : State} {w : Word} {e : DecodeReject} (hr : s.status = .running)
    (hw : s.fetch = .ok w) (hd : decode w = .error e) :
    step s = .next ((s.raise (.decodeError w s.pc)).setTone false) := by
  simp only [step, hr, hw, hd, State.raise_finish]

/-- Two bytes decode as their big-endian word does. -/
theorem decode_of_decodeBytes {hi lo : Byte} {i : Instr} (h : decodeBytes [hi, lo] = .ok (i, [])) :
    decode (wordOfBytes hi lo) = .ok i := by
  simp only [decodeBytes] at h
  split at h
  · next j hj => cases h; exact hj
  · cases h

/-- The model's tick of one timer is the statements' (40_cycle.md R107). -/
theorem tickDown_eq_ticked (d : Byte) : tickDown d = ticked d := by
  apply BitVec.eq_of_toNat_eq
  have hd := d.isLt
  rw [tickDown_toNat, ticked, BitVec.toNat_ofNat, Nat.mod_eq_of_lt (by omega)]

end Sys2Proof.Machine

/-- Settles O10: the two bytes at PC, decoded, are the instruction the step executes. -/
theorem stepRunsDecodedInstruction : Obligations.StepRunsDecodedInstruction := by
  unfold Obligations.StepRunsDecodedInstruction
  intro s i hr hpc hd
  obtain ⟨t, hx⟩ := exec_next i s
  rw [step_of_runs hr ⟨hpc, decode_of_decodeBytes hd⟩ hx, hx]

/-- Settles O11: a progressed step ends with the tick, any other with the tone output cleared. -/
theorem finishTicksProgressedSteps : Obligations.FinishTicksProgressedSteps := by
  unfold Obligations.FinishTicksProgressedSteps
  refine ⟨fun s h => ?_, fun s h => s.finish_other h⟩
  rw [s.finish_progressed h, ← tickDown_eq_ticked, ← tickDown_eq_ticked]
  rfl

/-- Settles O13: the fetch fails with the lower failing address, and the step raises that fault. -/
theorem fetchBeyondMemoryFaults : Obligations.FetchBeyondMemoryFaults := by
  unfold Obligations.FetchBeyondMemoryFaults
  intro s hr hpc
  exact ⟨_, fun h => if_pos h, fun h => if_neg h, step_of_fetch_error hr (s.fetch_error hpc)⟩

/-- Settles O14: a word the decoder refuses is the fault the step raises. -/
theorem illegalWordRaisesDecodeError : Obligations.IllegalWordRaisesDecodeError := by
  unfold Obligations.IllegalWordRaisesDecodeError
  exact fun s w hr hw hd => step_of_decode_error hr hw hd

/-- Settles O15, by the first match of the step (40_cycle.md R111). -/
theorem faultedBlockHasNoStep : Obligations.FaultedBlockHasNoStep := by
  unfold Obligations.FaultedBlockHasNoStep
  exact fun s f h => step_faulted h

/-- Settles O16: whatever the fetch, the decoder and the instruction answer, the step goes on to a next state, which is
that of one of the three kinds of step. -/
theorem runningBlockAlwaysSteps : Obligations.RunningBlockAlwaysSteps := by
  unfold Obligations.RunningBlockAlwaysSteps
  intro s hr
  obtain ⟨t, ht⟩ : ∃ t, step s = .next t := by
    rcases step_running hr with ⟨-, f, hf⟩ | ⟨-, w, -, ⟨e, -, he⟩ | ⟨i, u, -, -, hu⟩⟩
    · exact ⟨_, hf⟩
    · exact ⟨_, he⟩
    · exact ⟨_, hu⟩
  refine ⟨t, ht, ?_⟩
  rcases step_cases hr ht with ⟨f, rfl⟩ | ⟨x, -, -, rfl⟩ | ⟨i, u, -, -, hwent, rfl⟩
  · exact .inr (.inr ⟨f, rfl, rfl⟩)
  · exact .inr (.inl ⟨rfl, hr⟩)
  · exact .inl ⟨hwent.outcome, hwent.status.trans hr⟩

/-- Settles O18: of the three kinds of step only the one that raises a fault leaves the status Faulted. -/
theorem faultingStepWritesOnlyStatus : Obligations.FaultingStepWritesOnlyStatus := by
  unfold Obligations.FaultingStepWritesOnlyStatus
  intro s t f hr hs hf
  rcases step_cases hr hs with ⟨g, rfl⟩ | ⟨x, -, -, rfl⟩ | ⟨i, u, -, -, hwent, rfl⟩
  · obtain rfl : g = f := Status.faulted.inj hf
    rfl
  · exact absurd (hr.symm.trans hf) (by simp)
  · exact absurd ((hwent.status.trans hr).symm.trans hf) (by simp)

/-- Settles O24: a step that raises a fault or blocks keeps memory whole, and a completed instruction stores between
the font and the end of memory only; no instruction writes a key. -/
theorem stepKeepsFontAndKeys : Obligations.StepKeepsFontAndKeys := by
  unfold Obligations.StepKeepsFontAndKeys
  intro s t hs
  rcases step_cases (running_of_step hs) hs with ⟨f, rfl⟩ | ⟨x, -, -, rfl⟩ | ⟨i, u, -, -, hwent, rfl⟩
  · exact ⟨rfl, fun _ _ => rfl⟩
  · exact ⟨rfl, fun _ _ => rfl⟩
  · exact ⟨hwent.keys, fun _ ha => hwent.read_outside ha⟩

end

section
open Sys2Proof Sys2Proof.Machine

namespace Sys2Proof.Machine

/-! ### Construction (70_reset_and_hazards.md section 1) -/

theorem imageFits_iff {image : Bytes} : imageFits image = true ↔ image.length ≤ 3584 := decide_eq_true_iff

theorem construct_fits {image : Bytes} (h : image.length ≤ 3584) :
    construct (some image) = .ok (State.ofImage image) := if_pos (imageFits_iff.mpr h)

theorem construct_tooLong {image : Bytes} (h : 3584 < image.length) :
    construct (some image) = .error (.tooLong image.length) := if_neg (mt imageFits_iff.mp (by omega))

theorem construct_none : construct none = .error .unreadable := rfl

/-- Construction answers only images that fit, and the state of each. -/
theorem construct_ok {image : Option Bytes} {s : State} (h : construct image = .ok s) :
    ∃ bytes, image = some bytes ∧ bytes.length ≤ 3584 ∧ s = State.ofImage bytes := by
  cases image with
  | none => rw [construct_none] at h; cases h
  | some bytes =>
    rcases Nat.lt_or_ge 3584 bytes.length with hlen | hlen
    · rw [construct_tooLong hlen] at h; cases h
    · rw [construct_fits hlen] at h; cases h
      exact ⟨bytes, rfl, hlen, rfl⟩

/-- Nothing is listed in the memory of the reset state. -/
theorem reset_mem_wf : State.reset.mem.wf := ⟨.nil, by simp [State.reset]⟩

theorem ofImage_mem_wf {image : Bytes} (h : image.length ≤ 3584) : (State.ofImage image).mem.wf :=
  Memory.storeBytes_wf reset_mem_wf (by simp only [Config.memSize, Config.progBase]; omega)

theorem ofImage_read_inside {image : Bytes} (h : image.length ≤ 3584) (j : Nat) (hj : j < image.length) :
    (State.ofImage image).mem.read (0x200 + j) = image[j] :=
  Memory.read_storeBytes_inside reset_mem_wf (by simp only [Config.memSize, Config.progBase]; omega) hj

theorem ofImage_read_outside {image : Bytes} {a : Nat} (h : a < 0x200 ∨ 0x200 + image.length ≤ a) :
    (State.ofImage image).mem.read a = State.reset.mem.read a :=
  Memory.read_storeBytes_outside h

/-- The image lies above the font, so a constructed block meets the invariant. -/
theorem Inv.ofImage {image : Bytes} (h : image.length ≤ 3584) : Inv (State.ofImage image) where
  memory := ofImage_mem_wf h
  font a ha := ofImage_read_outside (.inl (by simp only [Config.fontSize] at ha; omega))
  pc := (by decide : State.reset.pc.toNat ≤ 0x10FE)
  entries := (by decide : ∀ (k : Nat) (h : k < 16), (State.reset.stack[k]'h).toNat ≤ 0xFFE)
  faulted f := by simp [State.ofImage, State.reset]
  tone := nofun

/-- A host whose image is rejected reports the error and takes no step (40_cycle.md R114). -/
theorem host_loadError {image : Option Bytes} {e : LoadError} (h : construct image = .error e)
    (us : List HostUpdate) : host image us = ⟨[], .loadError e⟩ := by
  rw [host, h]

/-! ### The host's operations keep the invariant -/

theorem Inv.keyEvent {s : State} (h : Inv s) (e : KeyEvent) : Inv (s.keyEvent e) := by
  obtain ⟨keys, he⟩ := s.keyEvent_spec e
  rw [he]
  exact ⟨h.memory, h.font, h.pc, h.entries, h.faulted, h.tone⟩

theorem Inv.render {s : State} (h : Inv s) : Inv s.render := by
  rw [s.render_eq]
  exact ⟨h.memory, h.font, h.pc, h.entries, h.faulted, h.tone⟩

end Sys2Proof.Machine

/-- Settles O21: the reset state is that of the empty image. -/
theorem resetMeetsInvariant : Obligations.ResetMeetsInvariant := by
  unfold Obligations.ResetMeetsInvariant
  exact Inv.ofImage (image := []) (by simp)

/-- Settles O23, by induction on how the state was reached. -/
theorem reachableStatesMeetInvariant : Obligations.ReachableStatesMeetInvariant := by
  unfold Obligations.ReachableStatesMeetInvariant
  intro s h
  induction h with
  | construct image s hc =>
    obtain ⟨bytes, -, hlen, rfl⟩ := construct_ok hc
    exact .ofImage hlen
  | step s t _ hs ih => exact stepKeepsInvariant s t ih hs
  | key s e _ ih => exact ih.keyEvent e
  | render s _ ih => exact ih.render

/-- Settles O2: the image is stored byte by byte into the reset state's memory, and nothing else is written. -/
theorem constructLoadsImage : Obligations.ConstructLoadsImage := by
  unfold Obligations.ConstructLoadsImage
  intro image h
  exact ⟨_, construct_fits h, ofImage_read_inside h, fun a ha => ofImage_read_outside ha, ofImage_mem_wf h, rfl⟩

/-- Settles O4: the first two bytes of the image lie at 0x200 and 0x201, where the first fetch reads. -/
theorem firstStepFetchesImage : Obligations.FirstStepFetchesImage := by
  unfold Obligations.FirstStepFetchesImage
  intro hi lo rest h
  refine ⟨_, construct_fits h, rfl, rfl, ?_⟩
  have hhi := ofImage_read_inside h 0 (by simp)
  have hlo := ofImage_read_inside h 1 (by simp)
  have hpc : State.reset.pc.toNat + 1 < Config.memSize := by decide
  rw [(State.ofImage _).fetch_ok hpc]
  exact congrArg₂ (fun a b => Except.ok (wordOfBytes a b)) hhi hlo

/-- Settles O3: each of the two rejected images has its own error, of the one code 1, and the host stops at it before
its loop. -/
theorem constructRejectsBadImage : Obligations.ConstructRejectsBadImage := by
  unfold Obligations.ConstructRejectsBadImage
  intro image hbad
  cases image with
  | none =>
    refine ⟨.unreadable, construct_none, fun _ => rfl, nofun, rfl, rfl, fun us => ?_⟩
    rw [host_loadError construct_none]
    exact ⟨rfl, rfl⟩
  | some bytes =>
    have he := construct_tooLong (hbad bytes rfl)
    refine ⟨_, he, nofun, fun _ h => Option.some.inj h ▸ rfl, rfl, rfl, fun us => ?_⟩
    rw [host_loadError he]
    exact ⟨rfl, rfl⟩

end

section
open Sys2Proof Sys2Proof.Machine

namespace Sys2Proof.Machine

/-! ### What each operation leaves (40_cycle.md R105) -/

theorem Leaves.trans {p : Footprint} {s t u : State} (h : Leaves p s t) (k : Leaves p t u) : Leaves p s u := by
  obtain ⟨hr, hi, hstk, hd, hst, hfb, hdr, hm, hk, hs, ht⟩ := h
  obtain ⟨kr, ki, kstk, kd, kst, kfb, kdr, km, kk, ks, kt⟩ := k
  exact ⟨fun r q => (kr r q).trans (hr r q), fun q => (ki q).trans (hi q),
    fun q => ⟨(kstk q).1.trans (hstk q).1, (kstk q).2.trans (hstk q).2⟩, fun q => (kd q).trans (hd q),
    fun q => (kst q).trans (hst q), fun q => ⟨(kfb q).1.trans (hfb q).1, (kfb q).2.trans (hfb q).2⟩,
    fun q => (kdr q).trans (hdr q), fun a q => (km a q).trans (hm a q), kk.trans hk, ks.trans hs, kt.trans ht⟩

theorem Leaves.setSt {p : Footprint} (s : State) (b : Byte) (hp : p.sound = true) : Leaves p s (s.setSt b) := by
  simp [Leaves, hp]

theorem Leaves.setFb {p : Footprint} (s : State) (fb : FrameBuffer) (hp : p.display = true) :
    Leaves p s (s.setFb fb) := by
  simp [Leaves, hp]

theorem Leaves.countDraw {p : Footprint} (s : State) (hp : p.draw = true) : Leaves p s s.countDraw := by
  simp [Leaves, hp]

/-- A push or a pop leaves everything outside a footprint that holds the stack. -/
theorem Leaves.setStack {p : Footprint} (s : State) (stack : Vector Word 16) (sp : Fin 17) (hp : p.stack = true) :
    Leaves p s { s with stack := stack, sp := sp } := by
  simp [Leaves, hp, State.getV]

/-- Bytes stored in the footprint's run of memory leave every byte outside it. -/
theorem Leaves.setMem {p : Footprint} (s : State) {bs : Bytes} (hlen : bs.length = p.storeLen) :
    Leaves p s (s.setMem (s.mem.storeBytes p.storeAt bs)) := by
  have hread : ∀ a, (a < p.storeAt ∨ p.storeAt + p.storeLen ≤ a) →
      (s.mem.storeBytes p.storeAt bs).read a = s.mem.read a :=
    fun a ha => Memory.read_storeBytes_outside (hlen ▸ ha)
  simp only [Leaves, State.setMem_mem]
  exact ⟨fun _ _ => rfl, fun _ => rfl, fun _ => ⟨rfl, rfl⟩, fun _ => rfl, fun _ => rfl, fun _ => ⟨rfl, rfl⟩,
    fun _ => rfl, hread, rfl, rfl, rfl⟩

theorem Leaves.setResultFlag {p : Footprint} (s : State) {x : Nibble} (result flag : Byte) (hx : x ∈ p.regs)
    (hf : vf ∈ p.regs) : Leaves p s (s.setResultFlag x result flag) :=
  (Leaves.setV result hx).trans (.setV flag hf)

/-- The registers a run of `n` names: V0 to V[n - 1]. -/
theorem mem_run_regs {n : Nat} {r : Nibble} (hn : n ≤ 16) :
    r ∈ (List.range n).map (BitVec.ofNat 4) ↔ r.toNat < n := by
  simp only [List.mem_map, List.mem_range]
  constructor
  · rintro ⟨k, hk, rfl⟩
    rw [BitVec.toNat_ofNat, Nat.mod_eq_of_lt (by omega)]
    exact hk
  · exact fun h => ⟨r.toNat, h, by simp⟩

theorem regCount_le (x : Nibble) : regCount x ≤ 16 := by have := x.isLt; simp only [regCount]; omega

/-- A load of V0 to V[x] leaves everything outside a footprint that holds them. -/
theorem Leaves.loadRun {p : Footprint} (s : State) (a : Nat) (x : Nibble)
    (hp : p.regs = (List.range (regCount x)).map (BitVec.ofNat 4)) : Leaves p s (s.loadRun a (regCount x)) := by
  obtain ⟨v, he, hr⟩ := s.loadRun_spec a (regCount x) (regCount_le x)
  have hregs : ∀ r, r ∉ p.regs → (s.loadRun a (regCount x)).getV r = s.getV r := fun r hnot => by
    rw [hp, mem_run_regs (regCount_le x)] at hnot
    rw [hr, if_neg hnot]
  rw [he] at hregs ⊢
  exact ⟨hregs, fun _ => rfl, fun _ => ⟨rfl, rfl⟩, fun _ => rfl, fun _ => rfl, fun _ => ⟨rfl, rfl⟩,
    fun _ => rfl, fun _ _ => rfl, rfl, rfl, rfl⟩

/-! ### The ways an instruction goes on after a check -/

/-- An instruction that progressed had no fault to raise. -/
theorem State.guarded_progressed {s t : State} {check : Option Fault} {go : Result}
    (hx : s.guarded check go = .next t) (ho : t.outcome = .progressed) : check = none ∧ go = .next t := by
  cases check with
  | none => exact ⟨rfl, hx⟩
  | some f =>
    obtain rfl := next_inj hx (s.guarded_some f go)
    cases ho

/-- What every instruction does: it raises a fault, blocks, or progresses. -/
theorem exec_inv {i : Instr} {s t : State} (hx : exec i s = .next t) :
    (∃ f, t = s.raise f) ∨ t = s.setOutcome .blocked ∨ t.outcome = .progressed := by
  rcases exec_cases i s with ⟨f, hf⟩ | ⟨x, -, -, hb⟩ | ⟨u, hu, hwent⟩
  · exact .inl ⟨f, next_inj hx hf⟩
  · exact .inr (.inl (next_inj hx hb))
  · exact .inr (.inr (next_inj hx hu ▸ hwent.outcome))

/-! ### What each instruction may write -/

/-- The footprint of an instruction that completes from `s`. -/
def writes (s : State) : Instr → Footprint
  | .cls => { display := true }
  | .ret => { stack := true }
  | .jp _ => {}
  | .call _ => { stack := true }
  | .seByte _ _ => {}
  | .sneByte _ _ => {}
  | .seReg _ _ => {}
  | .ldByte x _ => { regs := [x] }
  | .addByte x _ => { regs := [x] }
  | .ldReg x _ => { regs := [x] }
  | .orReg x _ => { regs := [x] }
  | .andReg x _ => { regs := [x] }
  | .xorReg x _ => { regs := [x] }
  | .addReg x _ => { regs := [x, 15] }
  | .subReg x _ => { regs := [x, 15] }
  | .shr x => { regs := [x, 15] }
  | .subnReg x _ => { regs := [x, 15] }
  | .shl x => { regs := [x, 15] }
  | .sneReg _ _ => {}
  | .ldI _ => { index := true }
  | .jpV0 _ => {}
  | .rnd x _ => { regs := [x], draw := true }
  | .drw _ _ _ => { regs := [15], display := true }
  | .skp _ => {}
  | .sknp _ => {}
  | .ldVxDt x => { regs := [x] }
  | .ldVxK x => { regs := [x] }
  | .ldDtVx _ => { delay := true }
  | .ldStVx _ => { sound := true }
  | .addI _ => { index := true, regs := [15] }
  | .ldF _ => { index := true }
  | .ldB _ => { storeAt := s.base, storeLen := 3 }
  | .storeRegs x => { index := true, storeAt := s.base, storeLen := x.toNat + 1 }
  | .loadRegs x => { index := true, regs := (List.range (x.toNat + 1)).map (BitVec.ofNat 4) }

/-- From `s` to `t` only the footprint changes, and memory is the same list when nothing is stored. -/
def Keeps (p : Footprint) (s t : State) : Prop := Leaves p s t ∧ (p.storeLen = 0 → t.mem = s.mem)

theorem Keeps.of_done {p : Footprint} {s t u : State} (hx : u.done = .next t) (hl : Leaves p s u)
    (hm : u.mem = s.mem) : Keeps p s t := by
  obtain rfl := next_inj hx u.done_eq
  exact ⟨hl.setPc_setOutcome _ _, fun _ => hm⟩

theorem Keeps.of_done_store {p : Footprint} {s t u : State} (hx : u.done = .next t) (hl : Leaves p s u)
    (hm : p.storeLen ≠ 0) : Keeps p s t := by
  obtain rfl := next_inj hx u.done_eq
  exact ⟨hl.setPc_setOutcome _ _, fun h => absurd h hm⟩

theorem Keeps.of_jumpTo {p : Footprint} {s t u : State} {w : Word} (hx : u.jumpTo w = .next t) (hl : Leaves p s u)
    (hm : u.mem = s.mem) : Keeps p s t := by
  obtain rfl := next_inj hx (u.jumpTo_eq w)
  exact ⟨hl.setPc_setOutcome _ _, fun _ => hm⟩

theorem Keeps.of_skipIf {p : Footprint} {s t : State} {taken : Bool} (hx : s.skipIf taken = .next t) : Keeps p s t :=
  .of_jumpTo (hx := (s.skipIf_eq_jumpTo taken).symm.trans hx) (.refl p s) rfl

theorem Keeps.of_skipOnKey {p : Footprint} {s t : State} {x : Nibble} {want : Bool}
    (hx : s.skipOnKey x want = .next t) (ho : t.outcome = .progressed) : Keeps p s t := by
  unfold State.skipOnKey at hx
  split at hx
  · obtain rfl := next_inj hx (s.takeFault_eq _)
    cases ho
  · exact .of_skipIf hx

/-- An instruction that completes changes its footprint alone. -/
theorem exec_keeps {i : Instr} {s t : State} (hx : exec i s = .next t) (ho : t.outcome = .progressed) :
    Keeps (writes s i) s t := by
  cases i with
  | seByte | sneByte | seReg | sneReg => exact .of_skipIf hx
  | skp | sknp => exact .of_skipOnKey hx ho
  | jp | jpV0 => exact .of_jumpTo hx (.refl _ s) rfl
  | ldByte | addByte | ldReg | orReg | andReg | xorReg | ldVxDt =>
    exact .of_done hx (.setV _ (List.mem_singleton_self _)) rfl
  | addReg | subReg | subnReg | shr | shl =>
    exact .of_done hx (.setResultFlag s _ _ (by simp [writes]) (by simp [writes, vf])) rfl
  | rnd =>
    exact .of_done hx ((Leaves.setV _ (List.mem_singleton_self _)).trans (.countDraw _ rfl)) rfl
  | ldDtVx => exact .of_done hx (.setDt s _ rfl) rfl
  | ldStVx => exact .of_done hx (.setSt s _ rfl) rfl
  | ldI | ldF => exact .of_done hx (.setI s _ rfl) rfl
  | addI =>
    exact .of_done hx ((Leaves.setI s _ rfl).trans (.setV _ (List.mem_singleton_self _))) rfl
  | cls => exact .of_done hx (.setFb s _ rfl) rfl
  | drw =>
    obtain ⟨-, hgo⟩ := State.guarded_progressed hx ho
    exact .of_done hgo ((Leaves.setFb s _ rfl).trans (.setV _ (List.mem_singleton_self _))) rfl
  | ldB =>
    obtain ⟨-, hgo⟩ := State.guarded_progressed hx ho
    exact .of_done_store hgo (.setMem s rfl) (by simp [writes])
  | storeRegs =>
    obtain ⟨-, hgo⟩ := State.guarded_progressed hx ho
    exact .of_done_store hgo ((Leaves.setMem s (by simp [writes, regCount])).trans (.setI _ _ rfl)) (by simp [writes])
  | loadRegs x =>
    obtain ⟨-, hgo⟩ := State.guarded_progressed hx ho
    obtain ⟨v, hv, -⟩ := s.loadRun_spec s.base (regCount x) (regCount_le x)
    exact .of_done hgo ((Leaves.loadRun s s.base x rfl).trans (.setI _ _ rfl)) (by rw [State.setI_mem, hv])
  | ldVxK =>
    simp only [exec, execLdVxK] at hx
    split at hx
    · obtain rfl := next_inj hx s.block_eq
      cases ho
    · exact .of_done hx (.setV _ (List.mem_singleton_self _)) rfl
  | call =>
    simp only [exec, execCall] at hx
    rcases s.push_cases s.pc with ⟨-, hp⟩ | ⟨_, _, hp⟩
    · rw [hp] at hx
      obtain rfl := next_inj hx (s.takeFault_eq _)
      cases ho
    · rw [hp] at hx
      exact .of_jumpTo hx (.setStack s _ _ rfl) rfl
  | ret =>
    simp only [exec, execRet] at hx
    rcases s.pop_cases with ⟨-, hp⟩ | ⟨_, _, -, hp⟩
    · rw [hp] at hx
      obtain rfl := next_inj hx (s.takeFault_eq _)
      cases ho
    · rw [hp] at hx
      exact .of_jumpTo hx (.setStack s _ _ rfl) rfl

end Sys2Proof.Machine
end

section
open Sys2Proof Sys2Proof.Machine

namespace Sys2Proof.Machine

/-! ### Which instructions have a part of the state in their footprint (10_state.md sections 1 to 8) -/

section
variable (s : State) (i : Instr)

theorem writes_storeLen : (writes s i).storeLen = 0 ∨ ∃ x, i = .ldB x ∨ i = .storeRegs x := by
  cases i <;> simp [writes]

theorem writes_display : (writes s i).display = false ∨ i = .cls ∨ ∃ x y n, i = .drw x y n := by
  cases i <;> simp [writes]

theorem writes_stack : (writes s i).stack = false ∨ i = .ret ∨ ∃ nnn, i = .call nnn := by
  cases i <;> simp [writes]

theorem writes_index : (writes s i).index = false ∨ (∃ nnn, i = .ldI nnn) ∨
    ∃ x, i = .addI x ∨ i = .ldF x ∨ i = .storeRegs x ∨ i = .loadRegs x := by
  cases i <;> simp [writes]

theorem writes_delay : (writes s i).delay = false ∨ ∃ x, i = .ldDtVx x := by
  cases i <;> simp [writes]

theorem writes_sound : (writes s i).sound = false ∨ ∃ x, i = .ldStVx x := by
  cases i <;> simp [writes]

theorem writes_draw : (writes s i).draw = false ∨ ∃ x nn, i = .rnd x nn := by
  cases i <;> simp [writes]

/-- FX65 names VF exactly for x = F. -/
theorem vf_mem_run_regs {x : Nibble} : 15 ∈ (List.range (x.toNat + 1)).map (BitVec.ofNat 4) ↔ x = 15 := by
  rw [mem_run_regs (n := x.toNat + 1) (regCount_le x)]
  constructor <;> intro h <;> bv_omega

theorem writes_vf (h : 15 ∈ (writes s i).regs) :
    (∃ x y, i = .addReg x y ∨ i = .subReg x y ∨ i = .subnReg x y) ∨ (∃ x, i = .shr x ∨ i = .shl x ∨ i = .addI x) ∨
    (∃ x y n, i = .drw x y n) ∨
    (∃ nn, i = .ldByte 15 nn ∨ i = .addByte 15 nn ∨ i = .rnd 15 nn) ∨
    (∃ y, i = .ldReg 15 y ∨ i = .orReg 15 y ∨ i = .andReg 15 y ∨ i = .xorReg 15 y) ∨
    i = .ldVxDt 15 ∨ i = .ldVxK 15 ∨ i = .loadRegs 15 := by
  cases i with
  | loadRegs x => simpa using vf_mem_run_regs.mp h
  | _ => simp_all [writes]

end

/-- What FX18 writes (46_timers_keys.md R204). -/
theorem exec_ldStVx (x : Nibble) (s : State) : exec (.ldStVx x) s = (s.setSt (s.getV x)).done := rfl

/-- A fault or a block changes no part of the state that an instruction writes, so that every instruction keeps what
lies outside its footprint. -/
theorem exec_frame {i : Instr} {s t : State} (hx : exec i s = .next t) :
    (∀ r, r ∉ (writes s i).regs → t.getV r = s.getV r) ∧
    ((writes s i).storeLen = 0 → t.mem = s.mem) ∧
    ((writes s i).display = false → t.fb = s.fb ∧ t.frameChanged = s.frameChanged) ∧
    ((writes s i).stack = false → t.stack = s.stack ∧ t.sp = s.sp) ∧
    ((writes s i).index = false → t.i = s.i) ∧
    ((writes s i).delay = false → t.dt = s.dt) ∧
    ((writes s i).sound = false → t.st = s.st) ∧
    ((writes s i).draw = false → t.draws = s.draws) := by
  rcases exec_inv hx with ⟨f, rfl⟩ | rfl | ho
  · simp
  · simp
  · obtain ⟨⟨hregs, hi, hstk, hdt, hst, hfb, hdraws, -⟩, hmem⟩ := exec_keeps hx ho
    exact ⟨hregs, hmem, hfb, hstk, hi, hdt, hst, hdraws⟩

end Sys2Proof.Machine

/-- Settles O25: what an instruction does not write it keeps, and the footprints name the writers of each part. -/
theorem eachPartHasItsWriters : Obligations.EachPartHasItsWriters := by
  unfold Obligations.EachPartHasItsWriters
  intro i s t hx
  obtain ⟨-, hmem, hfb, hstk, hi, hdt, hst, -⟩ := exec_frame hx
  exact ⟨(writes_storeLen s i).imp_left hmem, (writes_display s i).imp_left hfb, (writes_stack s i).imp_left hstk,
    (writes_index s i).imp_left hi, (writes_delay s i).imp_left hdt, (writes_sound s i).imp_left hst⟩

/-- Settles O26: an instruction that changes VF has it in its footprint. -/
theorem flagRegisterHasItsWriters : Obligations.FlagRegisterHasItsWriters := by
  unfold Obligations.FlagRegisterHasItsWriters
  intro i s t hx hvf
  obtain ⟨hregs, -⟩ := exec_frame hx
  exact writes_vf s i (not_imp_comm.mp (hregs 15) hvf)

/-- Settles O19: a progressed step is the instruction followed by the tick, which finds the timers as the instruction
left them: written by FX15 or FX18, or as they were. -/
theorem progressedStepTicksTimers : Obligations.ProgressedStepTicksTimers := by
  unfold Obligations.ProgressedStepTicksTimers
  intro s t i hr hruns hs ho
  obtain ⟨u, hx⟩ := exec_next i s
  obtain rfl := next_inj hs (step_of_runs hr hruns hx)
  obtain ⟨-, -, -, -, -, hdt, hst, -⟩ := exec_frame hx
  rw [State.finish_outcome] at ho
  simp only [u.finish_progressed ho, State.tick_dt, State.tick_st, State.tick_tone, tickDown_eq_ticked, beq_iff_eq]
  refine ⟨fun hi => ?_, fun x hi => ?_, fun hi => ?_, fun x hi => ?_⟩
  · rw [hdt ((writes_delay s i).resolve_right fun ⟨x, h⟩ => hi x h)]
  · subst hi
    rw [next_inj hx (exec_ldDtVx x s)]
    rfl
  · rw [hst ((writes_sound s i).resolve_right fun ⟨x, h⟩ => hi x h)]
    exact ⟨rfl, Iff.rfl⟩
  · subst hi
    rw [next_inj hx (exec_ldStVx x s)]
    exact ⟨rfl, Iff.rfl⟩

end

section
open Sys2Proof Sys2Proof.Machine

namespace Sys2Proof.Machine

/-! ### Another count of draws (log entry 4) -/

/-- The state after `d` draws instead of as many as were used. -/
def State.withDraws (s : State) (d : Nat) : State := { s with draws := d }

/-- A result with the count of draws replaced in its next state. -/
def resultWithDraws (d : Nat) : Result → Result
  | .next t => .next (t.withDraws d)
  | .fault f => .fault f
  | .refused r => .refused r

variable (s : State) (d : Nat)

@[simp] theorem State.withDraws_pc : (s.withDraws d).pc = s.pc := rfl
@[simp] theorem State.withDraws_getV (r : Nibble) : (s.withDraws d).getV r = s.getV r := rfl
@[simp] theorem State.withDraws_keyFlag (k : Byte) : (s.withDraws d).keyFlag k = s.keyFlag k := rfl
@[simp] theorem State.withDraws_lowestKey : (s.withDraws d).lowestKey = s.lowestKey := rfl

@[simp] theorem State.withDraws_push (w : Word) :
    (s.withDraws d).push w = (s.push w).map fun t => t.withDraws d := by
  rcases s.push_cases w with ⟨hsp, h⟩ | ⟨hsp, _, h⟩
  · rw [h]; exact dif_neg (show ¬ s.sp.val < 16 by omega)
  · rw [h]; exact dif_pos (show s.sp.val < 16 from hsp)

@[simp] theorem State.withDraws_pop : (s.withDraws d).pop = s.pop.map fun p => (p.1, p.2.withDraws d) := by
  rcases s.pop_cases with ⟨hsp, h⟩ | ⟨_, _, hsp, h⟩
  · rw [h]; exact dif_pos (show s.sp.val = 0 from hsp)
  · rw [h]; exact dif_neg (show ¬ s.sp.val = 0 by omega)

theorem State.withDraws_loadRun (a n : Nat) : (s.withDraws d).loadRun a n = (s.loadRun a n).withDraws d := by
  unfold State.loadRun
  exact List.foldl_hom (fun t : State => t.withDraws d) fun _ _ => rfl

theorem State.withDraws_guarded {check : Option Fault} {go go' : Result} (h : go' = resultWithDraws d go) :
    (s.withDraws d).guarded check go' = resultWithDraws d (s.guarded check go) := by
  cases check with
  | none => exact h
  | some f => rfl

theorem State.withDraws_skipOnKey (x : Nibble) (want : Bool) :
    (s.withDraws d).skipOnKey x want = resultWithDraws d (s.skipOnKey x want) := by
  simp only [State.skipOnKey, State.withDraws_getV, State.withDraws_keyFlag]
  cases s.keyFlag (s.getV x) <;> rfl

/-- Every instruction but CXNN does the same after any number of draws. -/
theorem exec_withDraws {i : Instr} (hi : ∀ x nn, i ≠ .rnd x nn) :
    exec i (s.withDraws d) = resultWithDraws d (exec i s) := by
  cases i with
  | rnd x nn => exact absurd rfl (hi x nn)
  | call =>
    simp only [exec, execCall, State.withDraws_push, State.withDraws_pc]
    cases s.push s.pc <;> rfl
  | ret =>
    simp only [exec, execRet, State.withDraws_pop]
    cases s.pop <;> rfl
  | ldVxK =>
    simp only [exec, execLdVxK, State.withDraws_lowestKey]
    cases s.lowestKey <;> rfl
  | skp | sknp => exact s.withDraws_skipOnKey d _ _
  | drw | ldB | storeRegs => exact s.withDraws_guarded d rfl
  | loadRegs => exact s.withDraws_guarded d (by rw [State.withDraws_loadRun]; rfl)
  | _ => rfl

end Sys2Proof.Machine

/-- Settles O20: CXNN alone has the draws in its footprint, and every other instruction commutes with replacing their
count. -/
theorem onlyRandomReadsTheDraw : Obligations.OnlyRandomReadsTheDraw := by
  unfold Obligations.OnlyRandomReadsTheDraw
  intro i s t d hi hx
  obtain ⟨-, -, -, -, -, -, -, hdraws⟩ := exec_frame hx
  have hwith := exec_withDraws s d hi
  rw [hx] at hwith
  exact ⟨hdraws ((writes_draw s i).resolve_right fun ⟨x, nn, h⟩ => hi x nn h), hwith⟩

end

section
open Sys2Proof Sys2Proof.Machine

namespace Sys2Proof.Machine

/-! ### Completing and faulting, from what `exec` answers -/

/-- An instruction that is done in a state `u` completes with PC + 2 and its own footprint. -/
theorem completes_of_done {i : Instr} {s u : State} {post : State → Prop} (hx : exec i s = u.done)
    (hpc : u.pc = s.pc) (hp : post ((u.setPc (s.pc + 2)).setOutcome .progressed)) :
    Completes i s (s.pc + 2) (writes s i) post :=
  completes_of_exec_done hx hpc (exec_keeps (hx.trans u.done_eq) rfl).1 hp

theorem completes_of_jumpTo {i : Instr} {s u : State} {w : Word} {post : State → Prop} (hx : exec i s = u.jumpTo w)
    (hp : post ((u.setPc w).setOutcome .progressed)) : Completes i s w (writes s i) post :=
  completes_of_exec_jumpTo hx (exec_keeps (hx.trans (u.jumpTo_eq w)) rfl).1 hp

theorem faults_of_takeFault {i : Instr} {s : State} {f : Fault} (hx : exec i s = s.takeFault f) : Faults i s f := hx

/-! ### Control transfer (42_control_flow.md) -/

theorem exec_jpV0 (nnn : Addr12) (s : State) :
    exec (.jpV0 nnn) s = s.jumpTo (addrOperand nnn + wide (s.getV 0)) := rfl

/-- The sum of a 12-bit and an 8-bit value fits in PC, so BNNN's target is exact (R134). -/
theorem addrOperand_add_wide_toNat (nnn : Addr12) (b : Byte) :
    (addrOperand nnn + wide b).toNat = nnn.toNat + b.toNat := by
  rw [BitVec.toNat_add, addrOperand_toNat, wide_toNat]
  omega

theorem exec_call (nnn : Addr12) {s : State} (h : s.sp.val < 16) :
    exec (.call nnn) s =
      State.jumpTo { s with stack := s.stack.set s.sp.val s.pc h, sp := ⟨s.sp.val + 1, Nat.succ_lt_succ h⟩ }
        (addrOperand nnn) := by
  simp only [exec, execCall, State.push, dif_pos h]

theorem exec_call_overflow (nnn : Addr12) {s : State} (h : s.sp.val = 16) :
    exec (.call nnn) s = s.takeFault (.stackOverflow s.pc) := by
  simp only [exec, execCall, State.push, dif_neg (show ¬ s.sp.val < 16 by omega)]

theorem exec_ret {s : State} (h : s.sp.val - 1 < 16) (hpos : 0 < s.sp.val) :
    exec .ret s =
      State.jumpTo { s with sp := ⟨s.sp.val - 1, Nat.lt_succ_of_lt h⟩ } (s.stack[s.sp.val - 1]'h + 2) := by
  simp only [exec, execRet, State.pop, State.stackAt, dif_neg (Nat.ne_of_gt hpos)]

theorem exec_ret_underflow {s : State} (h : s.sp.val = 0) : exec .ret s = s.takeFault (.stackUnderflow s.pc) := by
  simp only [exec, execRet, State.pop, dif_pos h]

end Sys2Proof.Machine

/-- Settles O29: the 16-bit sum never wraps. -/
theorem jumpAddsV0 : Obligations.JumpAddsV0 := by
  unfold Obligations.JumpAddsV0
  exact fun nnn s => ⟨_, addrOperand_add_wide_toNat nnn (s.getV 0), completes_of_jumpTo (exec_jpV0 nnn s) trivial⟩

/-- Settles O30: the push writes the entry at SP alone. -/
theorem callPushesItsAddress : Obligations.CallPushesItsAddress := by
  unfold Obligations.CallPushesItsAddress
  intro nnn s h
  refine completes_of_jumpTo (exec_call nnn h) ⟨?_, rfl, fun k hk hne => ?_⟩
  · exact Vector.getElem_set_self h
  · exact Vector.getElem_set_ne h hk hne.symm

/-- Settles O31: the pop moves SP and writes no entry. -/
theorem returnResumesAfterCall : Obligations.ReturnResumesAfterCall := by
  unfold Obligations.ReturnResumesAfterCall
  intro s h hpos
  exact completes_of_jumpTo (exec_ret h hpos) ⟨rfl, Nat.sub_add_cancel hpos⟩

/-- Settles O32: the push is refused at SP = 16 and the pop at SP = 0. -/
theorem stackBoundsFault : Obligations.StackBoundsFault := by
  unfold Obligations.StackBoundsFault
  exact ⟨fun nnn s h => faults_of_takeFault (exec_call_overflow nnn h),
    fun s h => faults_of_takeFault (exec_ret_underflow h)⟩

/-- Settles O33: SP is one above the pushed entry when the return pops, so it finds the call's own address. -/
theorem callThenReturn : Obligations.CallThenReturn := by
  unfold Obligations.CallThenReturn
  intro nnn s t u h hx hsp hentry
  obtain rfl := next_inj hx ((exec_call nnn h).trans (State.jumpTo_eq _ _))
  have hsp' : u.sp.val = s.sp.val + 1 := congrArg Fin.val hsp
  have hidx : u.sp.val - 1 = s.sp.val := by omega
  have hpopped : u.stack[u.sp.val - 1]'(hidx ▸ h) = s.pc := by
    simp only [hidx]
    exact hentry.trans (Vector.getElem_set_self h)
  refine ⟨_, exec_ret (hidx ▸ h) (by omega), rfl, ?_, ?_⟩
  · exact congrArg (· + 2) hpopped
  · exact Fin.ext hidx

end

section
open Sys2Proof Sys2Proof.Machine

namespace Sys2Proof.Machine

/-! ### The skips on a key (43_skip.md R145, R146) -/

theorem State.skipOnKey_eq {s : State} {x : Nibble} (want : Bool) (h : (s.getV x).toNat < 16) :
    s.skipOnKey x want = s.skipIf (s.keys[(s.getV x).toNat]'h == want) := by
  rw [State.skipOnKey, State.keyFlag_eq, dif_pos h]

theorem State.skipOnKey_fault {s : State} {x : Nibble} (want : Bool) (h : 15 < (s.getV x).toNat) :
    s.skipOnKey x want = s.takeFault (.keyIndex (s.getV x) s.pc) := by
  rw [State.skipOnKey, State.keyFlag_eq, dif_neg (by omega)]

theorem exec_skp (x : Nibble) (s : State) : exec (.skp x) s = s.skipOnKey x true := rfl

theorem exec_sknp (x : Nibble) (s : State) : exec (.sknp x) s = s.skipOnKey x false := rfl

end Sys2Proof.Machine

/-- Settles O36: up to 15 the register names a key, and the two skips test its flag and the negation of it. -/
theorem skipOnKeyState : Obligations.SkipOnKeyState := by
  unfold Obligations.SkipOnKeyState
  intro x s h
  refine ⟨?_, ?_⟩
  · exact completes_of_exec_skipIf ((exec_skp x s).trans (State.skipOnKey_eq true h)) beq_iff_eq
  · exact completes_of_exec_skipIf_not ((exec_sknp x s).trans (State.skipOnKey_eq false h))
      (by rw [beq_iff_eq, Bool.not_eq_true])

/-- Settles O37: above 15 the register names no key. -/
theorem keyIndexAboveFifteenFaults : Obligations.KeyIndexAboveFifteenFaults := by
  unfold Obligations.KeyIndexAboveFifteenFaults
  exact fun x s h => ⟨faults_of_takeFault ((exec_skp x s).trans (State.skipOnKey_fault true h)),
    faults_of_takeFault ((exec_sknp x s).trans (State.skipOnKey_fault false h))⟩

end

section
open Sys2Proof Sys2Proof.Machine

namespace Sys2Proof.Machine

/-! ### The results and flags of the ALU (44_alu.md section 2) -/

section
variable (x y : Nibble) (s : State)

theorem exec_orReg : exec (.orReg x y) s = (s.setV x (s.getV x ||| s.getV y)).done := rfl
theorem exec_andReg : exec (.andReg x y) s = (s.setV x (s.getV x &&& s.getV y)).done := rfl
theorem exec_xorReg : exec (.xorReg x y) s = (s.setV x (s.getV x ^^^ s.getV y)).done := rfl
theorem exec_addReg : exec (.addReg x y) s =
    (s.setResultFlag x (s.getV x + s.getV y) (carryFlag (s.getV x) (s.getV y))).done := rfl
theorem exec_subReg : exec (.subReg x y) s =
    (s.setResultFlag x (s.getV x - s.getV y) (noBorrowFlag (s.getV x) (s.getV y))).done := rfl
theorem exec_subnReg : exec (.subnReg x y) s =
    (s.setResultFlag x (s.getV y - s.getV x) (noBorrowFlag (s.getV y) (s.getV x))).done := rfl
theorem exec_shr : exec (.shr x) s = (s.setResultFlag x (s.getV x >>> 1) (lsbFlag (s.getV x))).done := rfl
theorem exec_shl : exec (.shl x) s = (s.setResultFlag x (s.getV x <<< 1) (msbFlag (s.getV x))).done := rfl
theorem exec_rnd (nn : Byte) : exec (.rnd x nn) s =
    ((s.setV x (Config.randomByte s.draws &&& nn)).countDraw).done := rfl

end

/-- The flag is written last: VF reads as the flag, and V[x] as the result unless it is VF (R151, decision D14). -/
theorem completes_of_exec_setResultFlag_done {i : Instr} {s : State} {x : Nibble} {result flag : Byte}
    {P Q : Byte → Prop} (hx : exec i s = (s.setResultFlag x result flag).done) (hP : P result) (hQ : Q flag) :
    Completes i s (s.pc + 2) { regs := [x, 15] } (fun t => (x ≠ 15 → P (t.getV x)) ∧ Q (t.getV 15)) := by
  refine completes_of_exec_done hx rfl
    (.setResultFlag s result flag (List.mem_cons_self) (List.mem_cons_of_mem _ (List.mem_singleton_self _)))
    ⟨fun hne => ?_, ?_⟩
  · rwa [State.setOutcome_getV, State.setPc_getV, State.setResultFlag, State.setV_getV_ne _ _ (show x ≠ vf from hne),
      State.setV_getV_same]
  · rwa [State.setOutcome_getV, State.setPc_getV, State.setResultFlag, ← vf, State.setV_getV_same]

theorem flagByte_toNat (b : Bool) : (flagByte b).toNat = b.toNat := by cases b <;> rfl

theorem carryFlag_eq (a b : Byte) : carryFlag a b = if a.toNat + b.toNat > 255 then 1 else 0 := by
  simp [carryFlag, flagByte]

theorem noBorrowFlag_eq (a b : Byte) : noBorrowFlag a b = if a.toNat < b.toNat then 0 else 1 := by
  by_cases h : a.toNat < b.toNat <;> simp [noBorrowFlag, flagByte, h]

theorem byte_sub_toNat (a b : Byte) : (a - b).toNat = (256 + a.toNat - b.toNat) % 256 := by
  have := b.isLt
  rw [BitVec.toNat_sub]
  congr 1
  omega

theorem lsbFlag_toNat (a : Byte) : (lsbFlag a).toNat = a.toNat % 2 := by
  rw [lsbFlag, flagByte_toNat, BitVec.getLsbD, Nat.toNat_testBit, pow_zero, Nat.div_one]

theorem msbFlag_toNat (a : Byte) : (msbFlag a).toNat = a.toNat / 128 := by
  have := a.isLt
  rw [msbFlag, flagByte_toNat, BitVec.getLsbD, Nat.toNat_testBit]
  omega

theorem shiftRight_one_toNat (a : Byte) : (a >>> 1).toNat = a.toNat / 2 := by
  rw [BitVec.toNat_ushiftRight, Nat.shiftRight_eq_div_pow, pow_one]

theorem shiftLeft_one_toNat (a : Byte) : (a <<< 1).toNat = a.toNat * 2 % 256 := by
  rw [BitVec.toNat_shiftLeft, Nat.shiftLeft_eq, pow_one]

end Sys2Proof.Machine

/-- Settles O39: each of the three writes one byte to V[x] and none to VF. -/
theorem bitwiseOperations : Obligations.BitwiseOperations := by
  unfold Obligations.BitwiseOperations
  refine fun x y s => ⟨?_, ?_, ?_⟩
  · exact completes_of_exec_setV_done
      (P := fun b => ∀ k, b.getLsbD k = ((s.getV x).getLsbD k || (s.getV y).getLsbD k))
      (exec_orReg x y s) fun k => BitVec.getLsbD_or
  · exact completes_of_exec_setV_done
      (P := fun b => ∀ k, b.getLsbD k = ((s.getV x).getLsbD k && (s.getV y).getLsbD k))
      (exec_andReg x y s) fun k => BitVec.getLsbD_and
  · exact completes_of_exec_setV_done
      (P := fun b => ∀ k, b.getLsbD k = ((s.getV x).getLsbD k != (s.getV y).getLsbD k))
      (exec_xorReg x y s) fun k => BitVec.getLsbD_xor

/-- Settles O40: the sum as bytes, and the flag from the exact sum. -/
theorem addWithCarry : Obligations.AddWithCarry := by
  unfold Obligations.AddWithCarry
  intro x y s
  exact completes_of_exec_setResultFlag_done (P := fun b => b.toNat = ((s.getV x).toNat + (s.getV y).toNat) % 256)
    (Q := fun b => b = if (s.getV x).toNat + (s.getV y).toNat > 255 then 1 else 0)
    (exec_addReg x y s) (BitVec.toNat_add _ _) (carryFlag_eq _ _)

/-- Settles O41: the difference as bytes, and the flag from the comparison of the exact values. -/
theorem subtractWithNoBorrow : Obligations.SubtractWithNoBorrow := by
  unfold Obligations.SubtractWithNoBorrow
  refine fun x y s => ⟨?_, ?_⟩
  · exact completes_of_exec_setResultFlag_done
      (P := fun b => b.toNat = (256 + (s.getV x).toNat - (s.getV y).toNat) % 256)
      (Q := fun b => b = if (s.getV x).toNat < (s.getV y).toNat then 0 else 1)
      (exec_subReg x y s) (byte_sub_toNat _ _) (noBorrowFlag_eq _ _)
  · exact completes_of_exec_setResultFlag_done
      (P := fun b => b.toNat = (256 + (s.getV y).toNat - (s.getV x).toNat) % 256)
      (Q := fun b => b = if (s.getV y).toNat < (s.getV x).toNat then 0 else 1)
      (exec_subnReg x y s) (byte_sub_toNat _ _) (noBorrowFlag_eq _ _)

/-- Settles O42: the shifted byte, and the flag from the bit at the end it leaves by. -/
theorem shiftMovesBitIntoFlag : Obligations.ShiftMovesBitIntoFlag := by
  unfold Obligations.ShiftMovesBitIntoFlag
  refine fun x s => ⟨?_, ?_⟩
  · exact completes_of_exec_setResultFlag_done (P := fun b => b.toNat = (s.getV x).toNat / 2)
      (Q := fun b => b.toNat = (s.getV x).toNat % 2) (exec_shr x s) (shiftRight_one_toNat _) (lsbFlag_toNat _)
  · exact completes_of_exec_setResultFlag_done (P := fun b => b.toNat = (s.getV x).toNat * 2 % 256)
      (Q := fun b => b.toNat = (s.getV x).toNat / 128) (exec_shl x s) (shiftLeft_one_toNat _) (msbFlag_toNat _)

/-- Settles O43: the draw is a free byte, and masking it twice is masking it once. -/
theorem randomIsMasked : Obligations.RandomIsMasked := by
  unfold Obligations.RandomIsMasked
  intro x nn s
  refine completes_of_done (exec_rnd x s nn) rfl ?_
  have hread : (((s.setV x (Config.randomByte s.draws &&& nn)).countDraw.setPc (s.pc + 2)).setOutcome
      .progressed).getV x = Config.randomByte s.draws &&& nn := s.setV_getV_same x _
  rw [hread]
  exact ⟨rfl, by rw [BitVec.and_assoc, BitVec.and_self], fun h => by simp [h], rfl⟩

end

section
open Sys2Proof Sys2Proof.Machine

namespace Sys2Proof.Machine

/-! ### FX1E, FX33, FX55 and FX65 (45_index_memory.md section 1) -/

section
variable (x : Nibble) (s : State)

theorem exec_addI : exec (.addI x) s =
    ((s.setI (s.i + wide (s.getV x))).setV vf (indexFlag (s.i + wide (s.getV x)))).done := rfl

theorem exec_ldB : exec (.ldB x) s = s.guarded (checkWrite s.pc s.base 3)
    (s.setMem (s.mem.storeBytes s.base (decimalDigits (s.getV x)))).done := rfl

theorem exec_storeRegs : exec (.storeRegs x) s = s.guarded (checkWrite s.pc s.base (regCount x))
    ((s.setMem (s.mem.storeBytes s.base (s.regRun x))).setI (s.i + BitVec.ofNat 16 (regCount x))).done := rfl

theorem exec_loadRegs : exec (.loadRegs x) s = s.guarded (checkRead s.pc s.base (regCount x))
    ((s.loadRun s.base (regCount x)).setI (s.i + BitVec.ofNat 16 (regCount x))).done := rfl

end

theorem exec_ldB_inside (x : Nibble) {s : State} (hlo : 0x50 ≤ s.base) (hhi : s.base + 3 ≤ 0x1000) :
    exec (.ldB x) s = (s.setMem (s.mem.storeBytes s.base (decimalDigits (s.getV x)))).done := by
  rw [exec_ldB, checkWrite_none.mpr (.inr ⟨hlo, hhi⟩), State.guarded_none]

theorem exec_storeRegs_inside {x : Nibble} {s : State} (hlo : 0x50 ≤ s.base) (hhi : s.base + regCount x ≤ 0x1000) :
    exec (.storeRegs x) s =
      ((s.setMem (s.mem.storeBytes s.base (s.regRun x))).setI (s.i + BitVec.ofNat 16 (regCount x))).done := by
  rw [exec_storeRegs, checkWrite_none.mpr (.inr ⟨hlo, hhi⟩), State.guarded_none]

theorem exec_loadRegs_inside {x : Nibble} {s : State} (hhi : s.base + regCount x ≤ 0x1000) :
    exec (.loadRegs x) s =
      ((s.loadRun s.base (regCount x)).setI (s.i + BitVec.ofNat 16 (regCount x))).done := by
  rw [exec_loadRegs, checkRead_none.mpr (.inr hhi), State.guarded_none]

theorem indexFlag_eq (i : Word) : indexFlag i = if i.toNat > 0xFFF then 1 else 0 := by
  simp [indexFlag, flagByte]

theorem decimalDigits_toNat (b : Byte) :
    ((decimalDigits b)[0]).toNat = b.toNat / 100 ∧ ((decimalDigits b)[1]).toNat = b.toNat / 10 % 10 ∧
      ((decimalDigits b)[2]).toNat = b.toNat % 10 := by
  have := b.isLt
  simp only [decimalDigits, List.getElem_cons_zero, List.getElem_cons_succ, BitVec.toNat_ofNat]
  omega

theorem lt_regCount {x r : Nibble} : r.toNat < regCount x ↔ r ≤ x := Nat.lt_succ_iff

/-- I after a run of x + 1 registers, modulo 2^16 (R184, R185; decision D10). -/
theorem index_add_regCount_toNat (i : Word) (x : Nibble) :
    (i + BitVec.ofNat 16 (regCount x)).toNat = (i.toNat + x.toNat + 1) % 0x10000 := by
  simp [regCount, Nat.add_assoc]

/-- The r-th byte FX55 stores is V[r]. -/
theorem read_regRun {s : State} {x : Nibble} (hwf : s.mem.wf) (hhi : s.base + regCount x ≤ 0x1000) {r : Nibble}
    (hr : r ≤ x) : (s.mem.storeBytes s.base (s.regRun x)).read (s.base + r.toNat) = s.getV r := by
  have hlt : r.toNat < (s.regRun x).length := by
    rw [State.regRun_length]
    exact lt_regCount.mpr hr
  rw [Memory.read_storeBytes_inside hwf (by rwa [State.regRun_length]) hlt, State.regRun_getElem]
  simp

theorem State.loadRun_pc (s : State) (a : Nat) (x : Nibble) : (s.loadRun a (regCount x)).pc = s.pc := by
  obtain ⟨v, hv, -⟩ := s.loadRun_spec a (regCount x) (regCount_le x)
  rw [hv]

/-- The r-th byte FX65 loads goes to V[r]. -/
theorem State.loadRun_getV (s : State) (a : Nat) {x r : Nibble} (hr : r ≤ x) :
    (s.loadRun a (regCount x)).getV r = s.mem.read (a + r.toNat) := by
  obtain ⟨_, -, hv⟩ := s.loadRun_spec a (regCount x) (regCount_le x)
  rw [hv, if_pos (lt_regCount.mpr hr)]

/-! ### The faults of the accesses (20_memory.md R56, R57) -/

theorem checkWrite_bounds {pc : Word} {a n k : Nat} (hk : k < n)
    (hlow : ∀ j, j < k → 0x50 ≤ a + j ∧ a + j < 0x1000) (h : 0x1000 ≤ a + k) :
    checkWrite pc a n = some (.memoryBounds (a + k) .write pc) := by
  have hfault : writeFault pc (a + k) = some (.memoryBounds (a + k) .write pc) := by
    simp [writeFault, boundsFault, Config.memSize, Nat.not_lt.mpr h]
  exact firstFault_some.mpr ⟨k, hk, hfault, fun j hj => writeFault_none.mpr (hlow j hj)⟩

theorem checkWrite_font {pc : Word} {a n k : Nat} (hk : k < n)
    (hlow : ∀ j, j < k → 0x50 ≤ a + j ∧ a + j < 0x1000) (h : a + k < 0x50) :
    checkWrite pc a n = some (.fontWrite (a + k) pc) := by
  have hfault : writeFault pc (a + k) = some (.fontWrite (a + k) pc) := by
    simp [writeFault, boundsFault, Config.memSize, Config.fontSize, h, show a + k < 0x1000 by omega]
  exact firstFault_some.mpr ⟨k, hk, hfault, fun j hj => writeFault_none.mpr (hlow j hj)⟩

theorem checkRead_bounds {pc : Word} {a n k : Nat} (hk : k < n) (hlow : ∀ j, j < k → a + j < 0x1000)
    (h : 0x1000 ≤ a + k) : checkRead pc a n = some (.memoryBounds (a + k) .read pc) := by
  have hfault : boundsFault .read pc (a + k) = some (.memoryBounds (a + k) .read pc) := by
    simp [boundsFault, Config.memSize, Nat.not_lt.mpr h]
  exact firstFault_some.mpr ⟨k, hk, hfault, fun j hj => boundsFault_none.mpr (hlow j hj)⟩

/-- FX33 and FX55 raise the fault of their write check. -/
theorem faults_of_checkWrite {i : Instr} {n : Nat} {s : State} {f : Fault}
    (hi : ∃ x, (i = .ldB x ∧ n = 3) ∨ (i = .storeRegs x ∧ n = x.toNat + 1))
    (hc : checkWrite s.pc s.base n = some f) : Faults i s f := by
  obtain ⟨x, ⟨rfl, rfl⟩ | ⟨rfl, rfl⟩⟩ := hi
  · exact faults_of_takeFault (by rw [exec_ldB, hc]; rfl)
  · exact faults_of_takeFault (by rw [exec_storeRegs, regCount, hc]; rfl)

/-- The canvas DXYN makes of the frame buffer (41_display.md R122). -/
def State.drawn (s : State) (x y n : Nibble) : Canvas :=
  drawSprite s.mem s.base (s.getV x).toNat (s.getV y).toNat n.toNat s.fb

theorem exec_drw (x y n : Nibble) (s : State) : exec (.drw x y n) s =
    s.guarded (checkRead s.pc s.base n.toNat)
      ((s.setFb (s.drawn x y n).1).setV vf (flagByte (s.drawn x y n).2)).done := rfl

/-- FX65 and DXYN raise the fault of their read check. -/
theorem faults_of_checkRead {i : Instr} {n : Nat} {s : State} {f : Fault}
    (hi : (∃ x, i = .loadRegs x ∧ n = x.toNat + 1) ∨ (∃ x y h, i = .drw x y h ∧ n = h.toNat))
    (hc : checkRead s.pc s.base n = some f) : Faults i s f := by
  obtain ⟨x, rfl, rfl⟩ | ⟨x, y, h, rfl, rfl⟩ := hi
  · exact faults_of_takeFault (by rw [exec_loadRegs, regCount, hc]; rfl)
  · exact faults_of_takeFault (by rw [exec_drw, hc]; rfl)

end Sys2Proof.Machine

/-- Settles O45: I is added to first, and the flag is that of the new I. -/
theorem addToIndex : Obligations.AddToIndex := by
  unfold Obligations.AddToIndex
  intro x s
  refine completes_of_done (exec_addI x s) rfl ⟨?_, ?_⟩
  · exact (BitVec.toNat_add _ _).trans (by rw [wide_toNat])
  · exact (State.setV_getV_same _ vf _).trans (indexFlag_eq _)

/-- Settles O46: the three digits are stored at I and read back. -/
theorem storeDecimalDigits : Obligations.StoreDecimalDigits := by
  unfold Obligations.StoreDecimalDigits
  intro x s hwf hlo hhi
  have hread : ∀ k (hk : k < 3), (s.mem.storeBytes s.base (decimalDigits (s.getV x))).read (s.base + k) =
      (decimalDigits (s.getV x))[k] := fun k hk => Memory.read_storeBytes_inside hwf hhi hk
  obtain ⟨h0, h1, h2⟩ := decimalDigits_toNat (s.getV x)
  refine completes_of_done (exec_ldB_inside x hlo hhi) rfl ⟨?_, ?_, ?_⟩
  · exact (congrArg BitVec.toNat (hread 0 (by omega))).trans h0
  · exact (congrArg BitVec.toNat (hread 1 (by omega))).trans h1
  · exact (congrArg BitVec.toNat (hread 2 (by omega))).trans h2

/-- Settles O47: the run V0 to V[x] is stored at I and reads back register by register. -/
theorem storeRegisterRun : Obligations.StoreRegisterRun := by
  unfold Obligations.StoreRegisterRun
  intro x s hwf hlo hhi
  exact completes_of_done (exec_storeRegs_inside hlo hhi) rfl
    ⟨fun r hr => read_regRun hwf hhi hr, index_add_regCount_toNat s.i x⟩

/-- Settles O48: the run of bytes at I goes to V0 to V[x]. -/
theorem loadRegisterRun : Obligations.LoadRegisterRun := by
  unfold Obligations.LoadRegisterRun
  intro x s hhi
  exact completes_of_done (exec_loadRegs_inside hhi) (s.loadRun_pc s.base x)
    ⟨fun r hr => s.loadRun_getV s.base hr, index_add_regCount_toNat s.i x⟩

/-- Settles O49: the write check finds the lowest failing address, beyond memory or in the font. -/
theorem storeFaultsAtLowestAddress : Obligations.StoreFaultsAtLowestAddress := by
  unfold Obligations.StoreFaultsAtLowestAddress
  exact fun i n s hi k hk hlow => ⟨fun h => faults_of_checkWrite hi (checkWrite_bounds hk hlow h),
    fun h => faults_of_checkWrite hi (checkWrite_font hk hlow h)⟩

/-- Settles O50: the read check finds the lowest address beyond memory. -/
theorem readFaultsAtLowestAddress : Obligations.ReadFaultsAtLowestAddress := by
  unfold Obligations.ReadFaultsAtLowestAddress
  exact fun i n s hi k hk hlow h => faults_of_checkRead hi (checkRead_bounds hk hlow h)

/-- Settles O27: FX55 leaves PC at the address it stores V0 to, and the tick changes neither PC nor memory. -/
theorem storeIsSeenByNextFetch : Obligations.StoreIsSeenByNextFetch := by
  unfold Obligations.StoreIsSeenByNextFetch
  intro s x hwf hbase hx hlo hhi
  have hpc : (s.pc + 2).toNat = s.base := by rw [hbase]; bv_omega
  have h0 := read_regRun hwf hhi (r := 0) (Nat.zero_le _)
  have h1 := read_regRun hwf hhi (r := 1) hx
  refine ⟨_, (exec_storeRegs_inside hlo hhi).trans (State.done_eq _), ?_⟩
  rw [State.finish_progressed _ rfl, State.fetch_ok]
  · simp only [State.tick_mem, State.tick_pc, State.setOutcome_mem, State.setOutcome_pc, State.setPc_mem,
      State.setPc_pc, State.setI_mem, State.setI_pc, State.setMem_mem, State.setMem_pc, hpc]
    exact congrArg₂ (fun a b => Except.ok (wordOfBytes a b)) h0 h1
  · show (s.pc + 2).toNat + 1 < Config.memSize
    rw [hpc, Config.memSize]
    omega

end

section
open Sys2Proof Sys2Proof.Machine

namespace Sys2Proof.Machine

theorem exec_cls (s : State) : exec .cls s = (s.setFb FrameBuffer.blank).done := rfl

/-! ### The canvas of a draw, in the terms of the statements (41_display.md R122, R123) -/

section
variable {s : State} {x y n : Nibble} {px py : Nat}

theorem drawn_pixel :
    pixel (s.drawn x y n).1 px py = true ↔ (pixel s.fb px py = true ↔ ¬ SpriteCovers s x y n px py) :=
  (drawSprite_spec _ _ _ _ _ _ (Nat.le_of_lt n.isLt)).1 px py

/-- A covered pixel is inverted. -/
theorem drawn_pixel_covered (h : SpriteCovers s x y n px py) :
    pixel (s.drawn x y n).1 px py = !pixel s.fb px py := by
  rw [Bool.eq_iff_iff, drawn_pixel]
  simp [h]

/-- Every other pixel is kept. -/
theorem drawn_pixel_uncovered (h : ¬ SpriteCovers s x y n px py) :
    pixel (s.drawn x y n).1 px py = pixel s.fb px py := by
  rw [Bool.eq_iff_iff, drawn_pixel]
  simp [h]

/-- The draw reports whether a covered pixel was set. -/
theorem drawn_hit :
    (s.drawn x y n).2 = true ↔ ∃ px py, SpriteCovers s x y n px py ∧ pixel s.fb px py = true := by
  refine (drawSprite_spec _ _ _ _ _ _ (Nat.le_of_lt n.isLt)).2.trans ⟨?_, ?_⟩
  · rintro ⟨r, c, px, py, hr, hc, ⟨hbit, hx, hy⟩, hset⟩
    exact ⟨px, py, ⟨r, c, hr, hc, hbit, hx, hy⟩, hset⟩
  · rintro ⟨px, py, ⟨r, c, hr, hc, hbit, hx, hy⟩, hset⟩
    exact ⟨r, c, px, py, hr, hc, ⟨hbit, hx, hy⟩, hset⟩

end

theorem flagByte_eq_one {b : Bool} : flagByte b = 1 ↔ b = true := by cases b <;> decide

theorem flagByte_eq_zero {b : Bool} : flagByte b = 0 ↔ ¬ b = true := by cases b <;> decide

theorem exec_drw_inside (x y : Nibble) {n : Nibble} {s : State} (h : n = 0 ∨ s.base + n.toNat ≤ 0x1000) :
    exec (.drw x y n) s =
      ((s.setFb (s.drawn x y n).1).setV vf (flagByte (s.drawn x y n).2)).done := by
  rw [exec_drw, checkRead_none.mpr (h.imp_left fun h0 => congrArg BitVec.toNat h0), State.guarded_none]

/-- A draw that progressed read its sprite inside memory. -/
theorem inside_of_exec_drw {x y n : Nibble} {s t : State} (hx : exec (.drw x y n) s = .next t)
    (ho : t.outcome = .progressed) : n = 0 ∨ s.base + n.toNat ≤ 0x1000 := by
  obtain ⟨hcheck, -⟩ := State.guarded_progressed hx ho
  exact (checkRead_none.mp hcheck).imp_left fun h0 => BitVec.eq_of_toNat_eq h0

/-! ### A second draw of the same sprite (41_display.md R124) -/

/-- What a sprite covers is read from memory, I and the coordinates alone. -/
theorem spriteCovers_congr {s u : State} {x y n : Nibble} {px py : Nat} (hm : u.mem = s.mem) (hi : u.i = s.i)
    (hx : u.getV x = s.getV x) (hy : u.getV y = s.getV y) :
    SpriteCovers u x y n px py ↔ SpriteCovers s x y n px py := by
  simp only [SpriteCovers, State.base, hm, hi, hx, hy]

/-- Drawing over a frame buffer on which the same sprite has just been drawn restores it. -/
theorem drawn_drawn {s u : State} {x y n : Nibble} (hfb : u.fb = (s.drawn x y n).1)
    (hcov : ∀ px py, SpriteCovers u x y n px py ↔ SpriteCovers s x y n px py) : (u.drawn x y n).1 = s.fb := by
  refine frameBuffer_ext fun px py _ _ => ?_
  by_cases hc : SpriteCovers s x y n px py
  · rw [drawn_pixel_covered ((hcov px py).mpr hc), hfb, drawn_pixel_covered hc, Bool.not_not]
  · rw [drawn_pixel_uncovered (mt (hcov px py).mp hc), hfb, drawn_pixel_uncovered hc]

end Sys2Proof.Machine

/-- Settles O51: the blank frame buffer is written. -/
theorem clearEmptiesFrameBuffer : Obligations.ClearEmptiesFrameBuffer := by
  unfold Obligations.ClearEmptiesFrameBuffer
  exact fun s => completes_of_done (exec_cls s) rfl ⟨fun px py => pixel_blank px py, rfl⟩

/-- Settles O52: the canvas drawn has the covered pixels inverted, and VF, written last, is its report. -/
theorem drawInvertsCoveredPixels : Obligations.DrawInvertsCoveredPixels := by
  unfold Obligations.DrawInvertsCoveredPixels
  intro x y n s hin
  have hflag : ((s.setFb (s.drawn x y n).1).setV vf (flagByte (s.drawn x y n).2)).getV 15 =
      flagByte (s.drawn x y n).2 := State.setV_getV_same _ vf _
  refine completes_of_done (exec_drw_inside x y hin) rfl
    ⟨rfl, fun px py _ _ => ⟨?_, ?_⟩, fun hit => ?_, fun hmiss => ?_⟩
  · exact drawn_pixel_covered
  · exact drawn_pixel_uncovered
  · exact hflag.trans (flagByte_eq_one.mpr (drawn_hit.mpr hit))
  · exact hflag.trans (flagByte_eq_zero.mpr (mt drawn_hit.mp hmiss))

/-- Settles O53: with X and Y not F the first draw changes none of what the second reads but the frame buffer, on which
it inverts the same pixels again. -/
theorem drawTwiceRestores : Obligations.DrawTwiceRestores := by
  unfold Obligations.DrawTwiceRestores
  intro x y n s t t' u hx15 hy15 hx ho hsame hu
  have hin := inside_of_exec_drw hx ho
  obtain rfl := next_inj hx ((exec_drw_inside x y hin).trans (State.done_eq _))
  obtain ⟨hfb, hm, hi, hvx, hvy⟩ := hsame
  have hcov : ∀ px py, SpriteCovers t' x y n px py ↔ SpriteCovers s x y n px py := fun px py =>
    spriteCovers_congr hm hi (hvx.trans (State.setV_getV_ne _ _ hx15)) (hvy.trans (State.setV_getV_ne _ _ hy15))
  have hin' : n = 0 ∨ t'.base + n.toNat ≤ 0x1000 := by rw [State.base, hi]; exact hin
  obtain rfl := next_inj hu ((exec_drw_inside x y hin').trans (State.done_eq _))
  have hfb' : t'.fb = (s.drawn x y n).1 := hfb
  have hvf : ∀ {r : State}, ((r.setFb (r.drawn x y n).1).setV vf (flagByte (r.drawn x y n).2)).getV 15 =
      flagByte (r.drawn x y n).2 := State.setV_getV_same _ vf _
  have hit : (t'.drawn x y n).2 = true ↔
      ∃ px py, SpriteCovers s x y n px py ∧ pixel (s.drawn x y n).1 px py = true := by
    simp only [drawn_hit, hcov, hfb']
  have hclear : (∃ px py, SpriteCovers s x y n px py ∧ pixel (s.drawn x y n).1 px py = true) ↔
      ∃ px py, SpriteCovers s x y n px py ∧ pixel s.fb px py = false :=
    exists₂_congr fun px py => and_congr_right fun hc => by rw [drawn_pixel_covered hc, Bool.not_eq_true']
  refine ⟨drawn_drawn hfb' hcov, ?_, ?_, fun hblank => ?_⟩
  · exact (hvf ▸ flagByte_eq_one).trans hit
  · exact (hvf ▸ flagByte_eq_one).trans (hit.trans hclear)
  · refine hvf.trans (flagByte_eq_zero.mpr fun h => ?_)
    obtain ⟨px, py, -, hset⟩ := drawn_hit.mp h
    rw [hblank px py] at hset
    cases hset

end

section
open Sys2Proof Sys2Proof.Machine

namespace Sys2Proof.Machine

/-- An address at or above 0x50 that nothing has written reads as 0. -/
theorem resetByte_above_font {a : Nat} (h : 0x50 ≤ a) : resetByte a = 0 :=
  List.getD_eq_default _ _ (show font.length ≤ a from h)

theorem reset_getV (r : Nibble) : State.reset.getV r = 0 := Vector.getElem_replicate r.isLt

/-! ### FX0A and FX18 (46_timers_keys.md R201, R204) -/

theorem exec_ldVxK_pressed (x : Nibble) {s : State} {k : Nat} (h : s.lowestKey = some k) :
    exec (.ldVxK x) s = (s.setV x (BitVec.ofNat 8 k)).done := by
  simp only [exec, execLdVxK, h]

theorem exec_ldVxK_none (x : Nibble) {s : State} (h : s.lowestKey = none) : exec (.ldVxK x) s = s.block := by
  simp only [exec, execLdVxK, h]

theorem State.finish_st_toNat {s : State} (h : s.outcome = .progressed) : s.finish.st.toNat = s.st.toNat - 1 := by
  rw [s.finish_progressed h, State.tick_st, tickDown_toNat]

theorem State.finish_tone {s : State} (h : s.outcome = .progressed) : s.finish.tone = true ↔ s.st.toNat = 1 := by
  rw [s.finish_progressed h, State.tick_tone, beq_iff_eq, ← BitVec.toNat_inj]
  rfl

/-! ### Key events (40_cycle.md R113) -/

theorem State.setKey_getElem_ne (s : State) {k : Nibble} (b : Bool) {j : Nat} (hj : j < 16) (hne : j ≠ k.toNat) :
    (s.setKey k b).keys[j]'hj = s.keys[j]'hj :=
  Vector.getElem_set_ne k.isLt hj hne.symm

end Sys2Proof.Machine

/-- Settles O1: every field of the reset state, computed, and the memory above the font by its default. -/
theorem resetStateValues : Obligations.ResetStateValues := by
  unfold Obligations.ResetStateValues
  refine ⟨by decide, fun a ha _ => resetByte_above_font ha, reset_getV, rfl, rfl, rfl, by decide, rfl, rfl, by decide,
    fun px py => pixel_blank px py, rfl, rfl, ?_⟩
  exact construct_fits (image := []) (Nat.zero_le _)

/-- Settles O55: the tick comes after the write and finds V[x] in ST. -/
theorem soundTimerWrite : Obligations.SoundTimerWrite := by
  unfold Obligations.SoundTimerWrite
  exact fun x s => completes_of_done (exec_ldStVx x s) rfl ⟨rfl, State.finish_st_toNat rfl, State.finish_tone rfl⟩

/-- Settles O56: the lowest pressed key, if there is one, is a value a register holds. -/
theorem waitForKey : Obligations.WaitForKey := by
  unfold Obligations.WaitForKey
  refine fun x s => ⟨fun k hk hpressed hlower => ?_, fun hnone => exec_ldVxK_none x (s.lowestKey_none.mpr hnone)⟩
  have hlowest : s.lowestKey = some k := (s.lowestKey_some k).mpr ⟨hk, hpressed, hlower⟩
  refine completes_of_exec_setV_done (P := fun b => b.toNat = k) (exec_ldVxK_pressed x hlowest) ?_
  rw [BitVec.toNat_ofNat, Nat.mod_eq_of_lt (by omega)]

/-- Settles O57: both events write the one flag of their key. -/
theorem keyEventsSetOneFlag : Obligations.KeyEventsSetOneFlag := by
  unfold Obligations.KeyEventsSetOneFlag
  refine fun s k => ⟨⟨Vector.getElem_set_self k.isLt, Vector.getElem_set_self k.isLt⟩, ?_⟩
  rintro e (rfl | rfl)
  · exact ⟨rfl, fun j hj hne => s.setKey_getElem_ne true hj hne⟩
  · exact ⟨rfl, fun j hj hne => s.setKey_getElem_ne false hj hne⟩

end

section
open Sys2Proof Sys2Proof.Machine

namespace Sys2Proof.Machine

/-! ### The host's loop around a waiting block (46_timers_keys.md section 1) -/

/-- The state a waiting block is left in by its step. -/
def State.waited (s : State) : State := { s with outcome := .blocked, tone := false }

theorem step_waiting {s : State} {x : Nibble} (hr : s.status = .running) (hruns : s.runs (.ldVxK x))
    (hkey : s.lowestKey = none) : step s = .next s.waited := by
  rw [step_of_runs hr hruns ((exec_ldVxK_none x hkey).trans s.block_eq), State.finish_other _ (by simp)]
  rfl

/-- A round of a waiting block without a key event draws what was still to be drawn, and nothing else. -/
theorem hostLoop_waiting {s : State} {x : Nibble} (us : List HostUpdate) (hr : s.status = .running)
    (hruns : s.runs (.ldVxK x)) (hkey : s.lowestKey = none) :
    hostLoop (⟨[], true⟩ :: us) s = (hostLoop us s.waited.render).after s.drawSignal :=
  hostLoop_stepped (u := ⟨[], true⟩) us rfl (step_waiting hr hruns hkey) nofun

/-- After its first round a waiting block stays the same state and gives no signal. -/
theorem hostLoop_waited {s : State} {x : Nibble} (n : Nat) (hr : s.status = .running) (hruns : s.runs (.ldVxK x))
    (hkey : s.lowestKey = none) :
    hostLoop (List.replicate n ⟨[], true⟩) s.waited.render = ⟨[], .going s.waited.render⟩ := by
  induction n with
  | zero => rfl
  | succ n ih =>
    have hsame : s.waited.render.waited.render = s.waited.render := by simp only [State.render_eq]; rfl
    have hnothing : s.waited.render.drawSignal = [] := by rw [State.render_eq]; rfl
    rw [List.replicate_succ, hostLoop_waiting (x := x), hsame, ih, hnothing]
    · rfl
    · rw [State.render_eq]; exact hr
    · rw [State.render_eq]; exact hruns
    · rw [State.render_eq]; exact hkey

end Sys2Proof.Machine

/-- Settles O58: the first round draws what was still to be drawn, and each later one finds the block as the first left
it. -/
theorem waitingBlockStaysPut : Obligations.WaitingBlockStaysPut := by
  unfold Obligations.WaitingBlockStaysPut
  intro n x s hr hruns hkeys
  have hkey := s.lowestKey_none.mpr hkeys
  rw [List.replicate_succ, hostLoop_waiting _ hr hruns hkey, hostLoop_waited n hr hruns hkey, State.render_eq]
  simp [HostRun.after, State.drawSignal, State.waited]

/-- Settles O59: the loop polls, steps and renders as its round is written, and a running block's step answers a next
state whose outcome and status agree. -/
theorem hostRound : Obligations.HostRound := by
  unfold Obligations.HostRound
  refine fun u us s => ⟨fun hlive => hostLoop_stopped s us hlive, fun hlive hr => ?_⟩
  have hpolled : (s.poll u.events).status = .running := (s.poll_status u.events).trans hr
  obtain ⟨t, ht, houtcome⟩ := runningBlockAlwaysSteps _ hpolled
  refine ⟨t, ht, fun f hf => ?_, fun hrun => ?_⟩
  · obtain rfl := faultingStepWritesOnlyStatus _ t f hpolled ht hf
    exact hostLoop_faulted us hlive ht rfl
  · have hnofault : ∀ f, t.outcome ≠ .fault f := by
      intro f hf
      simp [hf, hrun] at houtcome
    rw [hostLoop_stepped us hlive ht hnofault, ← t.render_eq]
    exact ⟨rfl, rfl⟩

namespace Sys2Proof.Machine

/-- The host's loop from a reachable running block ends in a reachable one: Faulted with the reported fault, or running
when it was stopped or has not ended. -/
theorem hostLoop_ended {s : State} (h : Reachable s) (hr : s.status = .running) (us : List HostUpdate) :
    (∃ f t, (hostLoop us s).ended = .faulted f t ∧ Reachable t ∧ t.status = .faulted f) ∨
    (∃ t, ((hostLoop us s).ended = .stopped t ∨ (hostLoop us s).ended = .going t) ∧ Reachable t ∧
      t.status = .running) := by
  induction us generalizing s with
  | nil => exact .inr ⟨s, .inr rfl, h, hr⟩
  | cons u us ih =>
    cases hlive : u.live with
    | false =>
      rw [hostLoop_stopped s us hlive]
      exact .inr ⟨_, .inl rfl, h.poll u.events, (s.poll_status u.events).trans hr⟩
    | true =>
      obtain ⟨t, ht, hfaulted, hrunning⟩ := (hostRound u us s).2 hlive hr
      have hreach : Reachable t := .step _ t (h.poll u.events) ht
      cases hst : t.status with
      | faulted f =>
        rw [hfaulted f hst]
        exact .inl ⟨f, t, rfl, hreach, hst⟩
      | running =>
        rw [(hrunning hst).1, ← t.render_eq]
        refine ih hreach.render ?_
        rw [t.render_eq]
        exact hst

end Sys2Proof.Machine

/-- Settles O60: the loop runs from a constructed block only, which is reachable and running. -/
theorem hostRunsStayReachable : Obligations.HostRunsStayReachable := by
  unfold Obligations.HostRunsStayReachable
  intro image us
  refine ⟨fun e he => by rw [host_loadError he], ?_⟩
  cases hc : construct image with
  | error e => simp only [host_loadError hc]
  | ok s =>
    obtain ⟨bytes, rfl, -, rfl⟩ := construct_ok hc
    have hhost : host (some bytes) us = hostLoop us (State.ofImage bytes) := by rw [host, hc]
    rw [hhost]
    rcases hostLoop_ended (.construct bytes _ hc) rfl us with
      ⟨f, t, he, hreach, hst⟩ | ⟨t, he | he, hreach, hst⟩ <;> simp only [he] <;> exact ⟨hreach, hst⟩

end
